-- ==== Sys2Proof/Word.lean ====
section
/-! DEFINITION. The widths of the spec's values (00_scope.md R9, 30_encoding.md R40). -/

namespace Sys2Proof

/-- A byte, 0..255 (R9). -/
abbrev Byte := BitVec 8

/-- A 16-bit raw value word of a field (R9, R10). -/
abbrev Word := BitVec 16

/-- A 16-bit command word (R40). -/
abbrev CmdWord := BitVec 16

/-- The 4-bit field index `k` of a command word, 0..15 (R40, R43). -/
abbrev FieldIndex := BitVec 4

end Sys2Proof
end

