-- ==== Sys2Proof/Syntax.lean ====
section
/-! DEFINITION. The nine operations of the opcode map (30_encoding.md R42), one constructor per row of
spec/opcode_table.json, with the operands of the command word (R43, R44). The data operand is no part of an
instruction: it comes beside the command word (R41). -/

namespace Sys2Proof

/-- An operation with the operands its command word carries (R42). -/
inductive Instr where
  /-- CRC_INIT (R56). -/
  | crcInit
  /-- CRC_UPDATE: `b` is the byte to fold in (R57, R44). -/
  | crcUpdate (b : Byte)
  /-- CRC_READ (R58). -/
  | crcRead
  /-- CRC_SEQ (R59). -/
  | crcSeq
  /-- FIELD_CHECK (R60). -/
  | fieldCheck
  /-- FRAME: `n` is the group count (R64, R44). -/
  | frame (n : Byte)
  /-- SCALE: `k` is the field index (R74, R43). -/
  | scale (k : FieldIndex)
  /-- DESC: `k` is the field index (R73, R43). -/
  | desc (k : FieldIndex)
  /-- DECODE (R76). -/
  | decode
  deriving DecidableEq, Repr

end Sys2Proof
end

