-- ==== Sys2Proof/WellFormed.lean ====
section
/-! DEFINITION. Which instructions have a command word: the field index of SCALE and DESC is 0..6 (30_encoding.md R42,
R43). The other operands take every value of their width (R44). -/

namespace Sys2Proof

/-- The check of R42's table: `k` in 0..6 for SCALE and DESC. -/
def Instr.wellFormed : Instr → Bool
  | .crcInit => true
  | .crcUpdate _ => true
  | .crcRead => true
  | .crcSeq => true
  | .fieldCheck => true
  | .frame _ => true
  | .scale k => decide (k.toNat ≤ 6)
  | .desc k => decide (k.toNat ≤ 6)
  | .decode => true

end Sys2Proof
end

