-- ==== Sys2Proof/Decode.lean ====
section
/-! DEFINITION. The decoder of command words, total, rejecting by name (30_encoding.md R40, R42 to R44, R46 to R49), the
byte-wide port's form (R33, R41), and after them the encoder. -/

namespace Sys2Proof

/-- Why a word, or a byte sequence, is no command. Every one of these is the block's IllegalOperation (R46, R47), but
`truncated`, which the byte-wide port raises on fewer than two bytes. -/
inductive DecodeReject where
  /-- The operation code is 0x9..0xF (R46). -/
  | reservedOpcode
  /-- A field that must be 0 is not 0 (R47, R40). -/
  | fieldMustBeZero
  /-- `k` is 7..15 in SCALE or DESC (R47, R43). -/
  | noSuchField
  /-- Fewer than the two bytes of a command word (R41). -/
  | truncated
  deriving DecidableEq, Repr

/-- `opc = w[15:12]` (R40). -/
def cmdOpc (w : CmdWord) : BitVec 4 := w.extractLsb' 12 4

/-- `k = w[11:8]` (R40, R43). -/
def cmdK (w : CmdWord) : FieldIndex := w.extractLsb' 8 4

/-- `imm8 = w[7:0]` (R40, R44). -/
def cmdImm (w : CmdWord) : Byte := w.extractLsb' 0 8

/-- `i` if the fields that must be 0 are 0 (R40, R47). -/
def whenZero (zero : Bool) (i : Instr) : Except DecodeReject Instr :=
  if zero then .ok i else .error .fieldMustBeZero

/-- An operation with a field index: `imm8` must be 0 and `k` at most 6 (R49, rows 0x6 and 0x7). -/
def withField (w : CmdWord) (mk : FieldIndex → Instr) : Except DecodeReject Instr :=
  if cmdImm w ≠ 0 then .error .fieldMustBeZero
  else if (cmdK w).toNat ≤ 6 then .ok (mk (cmdK w)) else .error .noSuchField

/-- `decode_word` of R49. -/
def decodeWord (w : CmdWord) : Except DecodeReject Instr :=
  match (cmdOpc w).toNat with
  | 0x0 => whenZero (cmdK w == 0 && cmdImm w == 0) .crcInit
  | 0x1 => whenZero (cmdK w == 0) (.crcUpdate (cmdImm w))
  | 0x2 => whenZero (cmdK w == 0 && cmdImm w == 0) .crcRead
  | 0x3 => whenZero (cmdK w == 0 && cmdImm w == 0) .crcSeq
  | 0x4 => whenZero (cmdK w == 0 && cmdImm w == 0) .fieldCheck
  | 0x5 => whenZero (cmdK w == 0) (.frame (cmdImm w))
  | 0x6 => withField w .scale
  | 0x7 => withField w .desc
  | 0x8 => whenZero (cmdK w == 0 && cmdImm w == 0) .decode
  | _ => .error .reservedOpcode

/-- The byte-wide port: the command word is `w[15:8]`, `w[7:0]`; what follows is the data operand, whose length the port's
framing gives (R33, R41). -/
def wordOfBytes : List Byte → Except DecodeReject (CmdWord × List Byte)
  | hi :: lo :: data => .ok (hi ++ lo, data)
  | _ => .error .truncated

/-- The decoder on the bytes of a request as the byte-wide port carries them: the instruction and the data operand. -/
def decodeBytes (bytes : List Byte) : Except DecodeReject (Instr × List Byte) :=
  match wordOfBytes bytes with
  | .error e => .error e
  | .ok (w, data) =>
    match decodeWord w with
    | .error e => .error e
    | .ok i => .ok (i, data)

/-- The two bytes of a command word in port order (R33, R41). -/
def bytesOfWord (w : CmdWord) : List Byte := [w.extractLsb' 8 8, w.extractLsb' 0 8]

/-- What `decodeBytes` reads from a word whose bits are numbered as spec/opcode_table.json numbers them. Every row has 16
bits; the spec gives a wider row no meaning, and only the command word's 16 bits are read (log 9). -/
def decodeTableWord (nbits w : Nat) : Option Instr :=
  match decodeBytes (bytesOfWord (BitVec.ofNat 16 (w % 2 ^ nbits))) with
  | .ok (i, _) => some i
  | .error _ => none

/-- The word with the fields `opc`, `k` and `imm8` (R40). -/
def cmdWord (opc : BitVec 4) (k : FieldIndex) (imm : Byte) : CmdWord := opc ++ k ++ imm

/-- The command word of an instruction (R42, and the Encoding line of each operation's rule). -/
def encode : Instr → CmdWord
  | .crcInit => cmdWord 0x0 0 0
  | .crcUpdate b => cmdWord 0x1 0 b
  | .crcRead => cmdWord 0x2 0 0
  | .crcSeq => cmdWord 0x3 0 0
  | .fieldCheck => cmdWord 0x4 0 0
  | .frame n => cmdWord 0x5 0 n
  | .scale k => cmdWord 0x6 k 0
  | .desc k => cmdWord 0x7 k 0
  | .decode => cmdWord 0x8 0 0

/-- A request as the byte-wide port carries it: `w[15:8]`, `w[7:0]`, then the bytes of `D` in index order (R41). -/
def encodeBytes (i : Instr) (data : List Byte) : List Byte := bytesOfWord (encode i) ++ data

end Sys2Proof
end

