-- ==== Sys2Proof/Config.lean ====
section
/-! DEFINITION. What the spec leaves to an implementation: the two open parameters of 00_scope.md R8, which the spec
calls arguments of the model. Every rule of the block takes them as an argument; exec finds their value beside the block's
state (Outside.params), so every statement about every state holds for every value of them; log 2. "No other value of the
block is left to the implementation" (R8). -/

namespace Sys2Proof

/-- The open parameters of R8. -/
structure Params where
  /-- `P_CHECK_TRAILING`: whether DECODE also compares the checksum of group 7 (R8 (a), R79). -/
  checkTrailing : Bool
  /-- `P_MAX_DATA`: the largest data operand, in bytes, of one request; `none` is unbounded (R8 (b), R45). -/
  maxData : Option Nat
  deriving DecidableEq, Repr, Inhabited

/-- DESIGN CHOICE (log 2, unsafe): the parameters that State.reset holds. The spec gives none; no statement rests on them. -/
def Config.resetParams : Params := { checkTrailing := false, maxData := none }

end Sys2Proof
end

