-- ==== Sys2Proof/Machine/Constants.lean ====
section
/-! DEFINITION. The hardwired constants of 00_scope.md R7 and 10_state.md R18. -/

namespace Sys2Proof.Machine

/-- `POLY` (R7, R18). -/
def poly : Byte := 0x31

/-- `INIT` (R7, R18). -/
def init : Byte := 0xFF

/-- `GROUP_BYTES` (R7). -/
def groupBytes : Nat := 3

/-- `MEASURE_LEN` (R7). -/
def measureLen : Nat := 24

/-- `MEASURE_GROUPS`: 8, not 7 (R7, 90_conflicts.md C1). -/
def measureGroups : Nat := 8

/-- `FIELD_COUNT` (R7). -/
def fieldCount : Nat := 7

end Sys2Proof.Machine
end

