-- ==== Sys2Proof/Machine/State.lean ====
section
/-! DEFINITION. The block's architectural state (10_state.md R25), what stands outside it and reaches it as arguments, the
record of both that a step works on, the faults, and the state after reset. The block has no register file, program counter,
flags, memory, trap state or mode (R15, R16, R22, R27, R30, R83, R93). -/

namespace Sys2Proof.Machine

/-- A request: the command word and the data operand `D` (30_encoding.md R41, 20_memory.md R28). -/
structure Request where
  word : CmdWord
  data : List Byte
  deriving DecidableEq, Repr

/-- A response: a status byte and an output byte sequence (20_memory.md R29, 60_exceptions.md R84, R85). -/
structure Response where
  status : Byte
  out : List Byte
  deriving DecidableEq, Repr

/-- What the host does at the port: present a request (R31, R41) or reset the block (70_reset_and_hazards.md R97, R99). -/
inductive PortEvent where
  | request (r : Request)
  | reset
  deriving DecidableEq, Repr

/-- "The complete architectural state of the block is the pair `(ACC : byte, BUSY : bit)`" (R25). -/
structure Block where
  /-- `ACC` (R17, R23). -/
  acc : Byte
  /-- `BUSY` (R24). -/
  busy : Bool
  deriving DecidableEq, Repr

/-- Reset: `ACC = INIT`, `BUSY = 0` (70_reset_and_hazards.md R97). -/
def Block.reset : Block := { acc := init, busy := false }

/-- How a request ends: the block's state after it, and the response (R84). -/
structure Answer where
  block : Block
  response : Response
  deriving DecidableEq, Repr

/-- What stands outside the block. None of it is state of the block (R25, R26): the block's operations take the parameters and
the operand as arguments, and see nothing else of it (log 1, log 2). -/
structure Outside where
  /-- The arguments `P_CHECK_TRAILING` and `P_MAX_DATA` (R8); no step writes them. -/
  params : Params
  /-- The data operand of the request in service (R28); empty when none is. -/
  data : List Byte
  /-- What the host presents next, oldest first (R31, R108). -/
  inputs : List PortEvent
  /-- The responses returned so far, oldest first (R37, R108). -/
  responses : List Response
  deriving DecidableEq, Repr

/-- What a step works on: the block's state `toBlock`, which is all of R25's state, beside what stands outside the block. -/
structure State extends Block, Outside where
  deriving DecidableEq, Repr

/-- Why a step is not taken. The block's own errors are no faults: they are responses (R83). -/
inductive Fault where
  /-- `step`, on a request presented while `BUSY` is 1: it is not accepted and has no step (R31, U6). Safe: log 3. -/
  | requestWhileBusy
  /-- `step`, with nothing presented at the port: the run has ended (R108). Safe: log 4. -/
  | endOfRun
  deriving DecidableEq, Repr

/-- Why an instruction has no meaning in the model. -/
inductive Refusal where
  /-- `exec`, on an instruction whose meaning is not written; none is left. Safe. -/
  | notModelled (mnemonic : String)
  deriving DecidableEq, Repr

/-- The block after reset (R97); outside it nothing presented, nothing returned, and parameters the spec does not choose:
DESIGN CHOICE, log 1 and log 2. -/
def State.reset : State :=
  { Block.reset with params := Config.resetParams, data := [], inputs := [], responses := [] }

end Sys2Proof.Machine
end

