-- ==== Sys2Proof/Machine/Flags.lean ====
section
/-! DEFINITION. The block has no flags (10_state.md R22). What it has is the status byte of each response, computed here
(60_exceptions.md R85 to R87). -/

namespace Sys2Proof.Machine

/-- The errors the block raises (R87). -/
inductive BlockError where
  /-- ChecksumError: `g` is the index of the failing group (R87, R78). DECODE alone raises it. -/
  | checksum (g : BitVec 4)
  /-- FramingError (R87, R65). FRAME and DECODE raise it. -/
  | framing
  /-- IllegalOperation (R87, R46, R47). Every request can raise it. -/
  | illegalOperation
  deriving DecidableEq, Repr

/-- `code(E)`, bits [7:4] of the status byte (R85, R87). -/
def errorCode : BlockError → BitVec 4
  | .checksum _ => 1
  | .framing => 2
  | .illegalOperation => 3

/-- The information field, bits [3:0] of the status byte (R85). -/
def errorInfo : BlockError → BitVec 4
  | .checksum g => g
  | .framing => 0
  | .illegalOperation => 0

/-- `(code(E) << 4) | info` (R86). -/
def errorStatus (e : BlockError) : Byte := errorCode e ++ errorInfo e

/-- The status byte of success (R85). -/
def success : Byte := 0x00

end Sys2Proof.Machine
end

