-- ==== Sys2Proof/Machine/Operands.lean ====
section
/-! DEFINITION. How operands are read: the conversions of 00_scope.md R10, the byte order of 20_memory.md R32 and R33, the
data lengths of 30_encoding.md R42 and R45, and the 3-byte groups of 41_framer.md R63. -/

namespace Sys2Proof.Machine

/-- `be16(hi, lo)`: the first byte is the most significant (R10, R32). -/
def be16 (hi lo : Byte) : Word := hi ++ lo

/-- `v[15:8]`. -/
def hiByte (v : Word) : Byte := v.extractLsb' 8 8

/-- `v[7:0]`. -/
def loByte (v : Word) : Byte := v.extractLsb' 0 8

/-- `zext_16` (R10). -/
def zext16 (v : Word) : Int := v.toNat

/-- `sext_16` (R10). -/
def sext16 (v : Word) : Int := if v.getLsbD 15 then (v.toNat : Int) - 65536 else v.toNat

/-- A 32-bit value most significant byte first (R33). -/
def bytes32 (t : BitVec 32) : List Byte :=
  [t.extractLsb' 24 8, t.extractLsb' 16 8, t.extractLsb' 8 8, t.extractLsb' 0 8]

/-- A 3-byte group: its value and its checksum byte (R63). -/
structure Group where
  value : Word
  chk : Byte
  deriving DecidableEq, Repr

/-- Cut a byte sequence into groups of three bytes, from its start (R63, R32). -/
def groupsOf : List Byte → List Group
  | v0 :: v1 :: c :: rest => ⟨be16 v0 v1, c⟩ :: groupsOf rest
  | _ => []

/-- `frame(D, n)`: `none` is its FramingError, for every length but `3 * n` (R63, R65). -/
def frameGroups (data : List Byte) (n : Nat) : Option (List Group) :=
  if data.length = groupBytes * n then some (groupsOf data) else none

/-- The three bytes of a group in buffer order (R64). -/
def Group.bytes (g : Group) : List Byte := [hiByte g.value, loByte g.value, g.chk]

/-- The fixed data length an operation requires; `none` where the table says "any" (R42, R45). -/
def fixedDataLen : Instr → Option Nat
  | .crcInit => some 0
  | .crcUpdate _ => some 0
  | .crcRead => some 0
  | .crcSeq => none
  | .fieldCheck => some 3
  | .frame _ => none
  | .scale _ => some 2
  | .desc _ => some 0
  | .decode => none

/-- `|D| > m` where `P_MAX_DATA = some m` (R45, R8 (b)). -/
def exceedsMax (p : Params) (data : List Byte) : Bool :=
  match p.maxData with
  | none => false
  | some m => decide (m < data.length)

/-- The data-operand check of R45 and R47: too long for `P_MAX_DATA`, or not the fixed length. -/
def dataMalformed (i : Instr) (p : Params) (data : List Byte) : Bool :=
  exceedsMax p data ||
    (match fixedDataLen i with
     | none => false
     | some n => data.length != n)

end Sys2Proof.Machine
end

