-- ==== Sys2Proof/Machine/Ops.lean ====
section
/-! DEFINITION. The shared operations every rule is written in. On the block's own state: answering, raising an error (the
block's whole error mechanism: no trap, nothing saved, no return, 60_exceptions.md R83, R91, R92), writing `ACC`, and the checks
that come before an operation's own rule. On the record a step works on: accepting a request, delivering an answer, reset. -/

namespace Sys2Proof.Machine

/-- The rule of an operation: what the block answers, given its arguments (the parameters of R8, the data operand `D` of R28)
and its state. -/
abbrev Rule := Params → List Byte → Block → Answer

/-- `respond(status, out)`: the response is returned and `BUSY <- 0` (R84). -/
def respond (status : Byte) (out : List Byte) (b : Block) : Answer :=
  { block := { b with busy := false }, response := { status := status, out := out } }

/-- `raise E(info)`: the status byte of the error, an empty output, no other change (R86). -/
def raiseError (e : BlockError) (b : Block) : Answer := respond (errorStatus e) [] b

/-- Write `ACC` (R17). -/
def writeAcc (v : Byte) (b : Block) : Block := { b with acc := v }

/-- An operation's answer: its rule, after the data-operand checks (R45, R47, R49; priority: R89). -/
def answer (i : Instr) (rule : Rule) (p : Params) (data : List Byte) (b : Block) : Answer :=
  if dataMalformed i p data then raiseError .illegalOperation b else rule p data b

/-- Acceptance of a request: `BUSY` is 1 until its response (R24), and its data operand is delivered with it (R28). -/
def accept (r : Request) (s : State) : State := { s with busy := true, data := r.data }

/-- Delivery of an answer: the block goes to its new state, the response goes out after the earlier ones (R84, R37), and the
operand is not retained (R26). -/
def deliver (a : Answer) (s : State) : State :=
  { s with toBlock := a.block, data := [], responses := s.responses ++ [a.response] }

/-- Serve the accepted request: the block's answer to its arguments and its own state is delivered. -/
def serve (i : Instr) (rule : Rule) (s : State) : State := deliver (answer i rule s.params s.data s.toBlock) s

/-- Reset of the block (R97); a request in service is abandoned without a response (R99). -/
def resetBlock (s : State) : State := { s with toBlock := Block.reset, data := [] }

end Sys2Proof.Machine
end

