-- ==== Sys2Proof/Machine/Framer.lean ====
section
/-! DEFINITION. The response framer's operation (41_framer.md R63 to R66). -/

namespace Sys2Proof.Machine

/-- The rule of R64: the length check, then the groups written out byte by byte; no checksum is looked at (R66). -/
def ruleFrame (n : Byte) : Rule := fun _ data b =>
  match frameGroups data n.toNat with
  | none => raiseError .framing b
  | some groups => respond success (groups.flatMap Group.bytes) b

/-- FRAME (R64). -/
def execFrame (n : Byte) (s : State) : Host.Outcome State Fault Refusal :=
  .next (serve (.frame n) (ruleFrame n) s)

end Sys2Proof.Machine
end

