-- ==== Sys2Proof/Machine/Checksum.lean ====
section
/-! DEFINITION. The checksum engine's function and its five operations (40_checksum.md R54 to R60). -/

namespace Sys2Proof.Machine

/-- One of the 8 rounds of R54: the high bit is tested before the shift, the exclusive-or comes after it. -/
def crcRound (x : Byte) : Byte := if x.getLsbD 7 then (x <<< 1) ^^^ poly else x <<< 1

/-- `n` rounds. -/
def crcRounds : Nat → Byte → Byte
  | 0, x => x
  | n + 1, x => crcRounds n (crcRound x)

/-- `crc8_step(a, b)` (R54). -/
def crc8Step (a b : Byte) : Byte := crcRounds 8 (a ^^^ b)

/-- `crc8(S)` (R55). -/
def crc8 (bytes : List Byte) : Byte := bytes.foldl crc8Step init

/-- R56: `ACC <- INIT; respond(0x00, [])`. -/
def ruleCrcInit : Rule := fun _ _ b => respond success [] (writeAcc init b)

/-- CRC_INIT (R56). -/
def execCrcInit (s : State) : Host.Outcome State Fault Refusal :=
  .next (serve .crcInit ruleCrcInit s)

/-- R57: `ACC <- crc8_step(ACC, v); respond(0x00, [])`. -/
def ruleCrcUpdate (v : Byte) : Rule := fun _ _ b => respond success [] (writeAcc (crc8Step b.acc v) b)

/-- CRC_UPDATE (R57). -/
def execCrcUpdate (v : Byte) (s : State) : Host.Outcome State Fault Refusal :=
  .next (serve (.crcUpdate v) (ruleCrcUpdate v) s)

/-- R58: `respond(0x00, [ACC])`. -/
def ruleCrcRead : Rule := fun _ _ b => respond success [b.acc] b

/-- CRC_READ (R58). -/
def execCrcRead (s : State) : Host.Outcome State Fault Refusal :=
  .next (serve .crcRead ruleCrcRead s)

/-- R59: `respond(0x00, [crc8(D)])`. -/
def ruleCrcSeq : Rule := fun _ data b => respond success [crc8 data] b

/-- CRC_SEQ (R59). -/
def execCrcSeq (s : State) : Host.Outcome State Fault Refusal :=
  .next (serve .crcSeq ruleCrcSeq s)

/-- The match byte of R60: 0x01 where the stored checksum is the computed one, else 0x00. -/
def matchByte (stored computed : Byte) : Byte := if computed = stored then 0x01 else 0x00

/-- The rule of R60. Its last case is a data length other than 3, which `answer` has turned away (R45). -/
def ruleFieldCheck : Rule := fun _ data b =>
  match data with
  | [v0, v1, c] => respond success [matchByte c (crc8 [v0, v1]), crc8 [v0, v1]] b
  | _ => raiseError .illegalOperation b

/-- FIELD_CHECK (R60). A mismatch is no error. -/
def execFieldCheck (s : State) : Host.Outcome State Fault Refusal :=
  .next (serve .fieldCheck ruleFieldCheck s)

end Sys2Proof.Machine
end

