-- ==== Sys2Proof/Machine/Scaler.lean ====
section
/-! DEFINITION. The conversion descriptor table, the scaling function, its output form, and the operations DESC and SCALE
(10_state.md R19 to R21, 42_scaler.md R67 to R74). -/

namespace Sys2Proof.Machine

/-- An entry of the conversion descriptor table (R19). -/
structure Descriptor where
  /-- `signed`: whether the raw word is read with `sext_16`. -/
  signed : Bool
  /-- `den`: the divisor. -/
  den : Byte
  /-- `unit`: 0 µg/m³, 1 percent, 2 °C, 3 dimensionless index (R21). -/
  unit : Byte
  deriving DecidableEq, Repr

/-- The table, entries 0 to 6 (R20; humidity's divisor: 90_conflicts.md C2). -/
def descTable : List Descriptor :=
  [ ⟨false, 10, 0⟩, ⟨false, 10, 0⟩, ⟨false, 10, 0⟩, ⟨false, 10, 0⟩,
    ⟨true, 100, 1⟩, ⟨true, 200, 2⟩, ⟨true, 10, 3⟩ ]

/-- `desc(k)`; there is no entry for `k` in 7..15 (R20, R43). -/
def descOf (k : FieldIndex) : Option Descriptor := descTable[k.toNat]?

/-- A scaled value: the exact rational `num / den`, not reduced (R67). -/
structure Scaled where
  num : Int
  den : Byte
  deriving DecidableEq, Repr

/-- `scale(k, v)`, given the descriptor of `k` (R67). -/
def scaleBy (d : Descriptor) (v : Word) : Scaled :=
  { num := if d.signed then sext16 v else zext16 v, den := d.den }

/-- The physical value a scaled value denotes (R67). -/
def Scaled.value (x : Scaled) : Rat := (x.num : Rat) / (x.den.toNat : Rat)

/-- `enc_rat(n, d)` (R68). -/
def encRat (x : Scaled) : List Byte := bytes32 (BitVec.ofInt 32 x.num) ++ [x.den]

/-- The three bytes DESC answers (R73). -/
def Descriptor.bytes (d : Descriptor) : List Byte := [if d.signed then 1 else 0, d.den, d.unit]

/-- The rule of R73; a `k` with no entry is IllegalOperation (R43). -/
def ruleDesc (k : FieldIndex) : Rule := fun _ _ b =>
  match descOf k with
  | none => raiseError .illegalOperation b
  | some d => respond success d.bytes b

/-- DESC (R73). -/
def execDesc (k : FieldIndex) (s : State) : Host.Outcome State Fault Refusal :=
  .next (serve (.desc k) (ruleDesc k) s)

/-- The rule of R74; a `k` with no entry is IllegalOperation (R43), and so is a data length other than 2 (R45). -/
def ruleScale (k : FieldIndex) : Rule := fun _ data b =>
  match descOf k, data with
  | some d, [hi, lo] => respond success (encRat (scaleBy d (be16 hi lo))) b
  | _, _ => raiseError .illegalOperation b

/-- SCALE (R74). -/
def execScale (k : FieldIndex) (s : State) : Host.Outcome State Fault Refusal :=
  .next (serve (.scale k) (ruleScale k) s)

end Sys2Proof.Machine
end

