-- ==== Sys2Proof/Machine/Measurement.lean ====
section
/-! DEFINITION. The measurement decoder's operation (43_decoder.md R76 to R82). -/

namespace Sys2Proof.Machine

/-- Whether a group's checksum byte is not the checksum of its two value bytes in buffer order (R76, 20_memory.md R34). -/
def groupBad (g : Group) : Bool := crc8 [hiByte g.value, loByte g.value] != g.chk

/-- How many groups DECODE checks: 0 to 7 with `P_CHECK_TRAILING`, else 0 to 6 (R76, R79). -/
def checkedGroups (p : Params) : Nat := if p.checkTrailing then measureGroups else fieldCount

/-- The index of the first checked group whose checksum does not match, in ascending order (R78). -/
def firstBadGroup (p : Params) (groups : List Group) : Option Nat :=
  (groups.take (checkedGroups p)).findIdx? groupBad

/-- The output of a successful DECODE: `enc_rat` of `scale(k, G[k].value)` for `k` = 0 to 6 (R76, R80). -/
def readingBytes (groups : List Group) : List Byte :=
  (descTable.zip groups).flatMap (fun dg => encRat (scaleBy dg.1 dg.2.value))

/-- The rule of R76: every checked group is compared before any field is scaled (R77). -/
def ruleDecode : Rule := fun p data b =>
  if data.length ≠ measureLen then raiseError .framing b
  else
    match frameGroups data measureGroups with
    | none => raiseError .framing b
    | some groups =>
      match firstBadGroup p groups with
      | some g => raiseError (.checksum (BitVec.ofNat 4 g)) b
      | none => respond success (readingBytes groups) b

/-- DECODE (R76). -/
def execDecode (s : State) : Host.Outcome State Fault Refusal :=
  .next (serve .decode ruleDecode s)

end Sys2Proof.Machine
end

