-- ==== Sys2Proof/Machine/Dispatch.lean ====
section
/-! DEFINITION. One arm per operation of 30_encoding.md R42. -/

namespace Sys2Proof.Machine

def exec (i : Instr) (s : State) : Host.Outcome State Fault Refusal :=
  match i with
  | .crcInit => Sys2Proof.Machine.execCrcInit s
  | .crcUpdate b => Sys2Proof.Machine.execCrcUpdate b s
  | .crcRead => Sys2Proof.Machine.execCrcRead s
  | .crcSeq => Sys2Proof.Machine.execCrcSeq s
  | .fieldCheck => Sys2Proof.Machine.execFieldCheck s
  | .frame n => Sys2Proof.Machine.execFrame n s
  | .scale k => Sys2Proof.Machine.execScale k s
  | .desc k => Sys2Proof.Machine.execDesc k s
  | .decode => Sys2Proof.Machine.execDecode s

end Sys2Proof.Machine
end

