-- ==== Sys2Proof/Machine/Port.lean ====
section
/-! DEFINITION. The request port: how a presented request is taken, decoded and run (20_memory.md R31, R37; 30_encoding.md R49),
and how a host's reset is (70_reset_and_hazards.md R97, R99). -/

namespace Sys2Proof.Machine

/-- Decode the command word of an accepted request and run its operation; a word that is no command raises
IllegalOperation (R46, R47, R49). -/
def runWord (w : CmdWord) (s : State) : Host.Outcome State Fault Refusal :=
  match Sys2Proof.decodeWord w with
  | .ok i => exec i s
  | .error _ => .next (deliver (raiseError .illegalOperation s.toBlock) s)

/-- Take a request: only with `BUSY` 0 (R31); then it runs to its response in this one step (R37). -/
def takeRequest (r : Request) (s : State) : Host.Outcome State Fault Refusal :=
  if s.busy then .fault .requestWhileBusy else runWord r.word (accept r s)

/-- Take the oldest event at the port; with none the run has ended (R108). -/
def takeInput (s : State) : Host.Outcome State Fault Refusal :=
  match s.inputs with
  | [] => .fault .endOfRun
  | .request r :: rest => takeRequest r { s with inputs := rest }
  | .reset :: rest => .next (resetBlock { s with inputs := rest })

/-- How many data bytes a request needs for the command word to reach its operation's rule (R42): the fixed length, `3n` for
FRAME, MEASURE_LEN for DECODE, none for CRC_SEQ. -/
def requestDataLen : Instr → Nat
  | .crcInit => 0
  | .crcUpdate _ => 0
  | .crcRead => 0
  | .crcSeq => 0
  | .fieldCheck => 3
  | .frame n => groupBytes * n.toNat
  | .scale _ => 2
  | .desc _ => 0
  | .decode => measureLen

/-- The request that holds a table word: the word, and a data operand of zeros as long as its operation needs (log 5). -/
def tableRequest (nbits w : Nat) : Request :=
  { word := BitVec.ofNat 16 (w % 2 ^ nbits)
    data := match Sys2Proof.decodeTableWord nbits w with
      | some i => List.replicate (requestDataLen i) 0
      | none => [] }

end Sys2Proof.Machine
end

