-- ==== Sys2Proof/Machine/Step.lean ====
section
/-! DEFINITION. One step of the machine: the oldest event at the port is taken (20_memory.md R37). -/

namespace Sys2Proof.Machine

/-- One step: one request accepted, run and answered, or one reset (R37, R97). -/
def step (s : State) : Host.Outcome State Fault Refusal := takeInput s

/-- `s` with the instruction's request as the next one the port presents, and the port idle so that it is accepted (log 5). -/
def State.withFetchWord (s : State) (nbits w : Nat) : State :=
  { s with busy := false, inputs := .request (tableRequest nbits w) :: s.inputs }

end Sys2Proof.Machine
end

