-- ==== Sys2Proof/Machine/Pseudo.lean ====
section
/-! DEFINITION. The pseudo-instructions of 30_encoding.md R51, as the requests they expand to. -/

namespace Sys2Proof.Machine

/-- The request of an instruction with a data operand (R41). -/
def requestOf (i : Instr) (data : List Byte) : Request := ⟨Sys2Proof.encode i, data⟩

/-- CRC_BYTES: CRC_INIT, one CRC_UPDATE per byte, CRC_READ (R51). -/
def crcBytes (bytes : List Byte) : List Request :=
  requestOf .crcInit [] :: (bytes.map (fun b => requestOf (.crcUpdate b) []) ++ [requestOf .crcRead []])

/-- CHECK_GROUP: FIELD_CHECK of group `g` of a buffer; none where the buffer has no whole group `g` (R51; log 8). -/
def checkGroup (g : Nat) (buf : List Byte) : Option Request :=
  match (buf.drop (groupBytes * g)).take groupBytes with
  | [v0, v1, c] => some (requestOf .fieldCheck [v0, v1, c])
  | _ => none

end Sys2Proof.Machine
end

