-- ==== Sys2Proof/Machine/Assembler.lean ====
section
/-! DEFINITION. The assembler syntax of 30_encoding.md R50, with the pseudo-instructions of R51: one line to the requests it
stands for, a request and a response to their text. No step of the machine uses this file. Lines are lists of characters;
log 8 says what the rule leaves open. -/

namespace Sys2Proof.Machine

/-- The characters that open and close a data operand (R50), by their code. -/
def openBrace : Char := Char.ofNat 123

/-- See `openBrace`. -/
def closeBrace : Char := Char.ofNat 125

/-- The pieces of a line. -/
inductive Token where
  | word (chars : List Char)
  | openData
  | closeData
  deriving DecidableEq, Repr

/-- A word read so far, if any. -/
def flushWord (cur : List Char) : List Token := if cur.isEmpty then [] else [.word cur]

/-- Cut a line at white space (space 32, tab 9) and braces (123, 125); `cur` is the word being read. -/
def lexLine (cur : List Char) : List Char → List Token
  | [] => flushWord cur
  | c :: cs =>
    if c.toNat = 32 ∨ c.toNat = 9 then flushWord cur ++ lexLine [] cs
    else if c.toNat = 123 then flushWord cur ++ .openData :: lexLine [] cs
    else if c.toNat = 125 then flushWord cur ++ .closeData :: lexLine [] cs
    else lexLine (cur ++ [c]) cs

/-- The value of a hex digit, either case. -/
def hexDigit (c : Char) : Option Nat :=
  let n := c.toNat
  if 48 ≤ n ∧ n ≤ 57 then some (n - 48)
  else if 65 ≤ n ∧ n ≤ 70 then some (n - 55)
  else if 97 ≤ n ∧ n ≤ 102 then some (n - 87)
  else none

/-- The digits of a number in a base, most significant first. -/
def digitsValue (base : Nat) : Nat → List Char → Option Nat
  | acc, [] => some acc
  | acc, c :: cs =>
    match hexDigit c with
    | none => none
    | some d => if d < base then digitsValue base (acc * base + d) cs else none

/-- "Numbers are hex with `0x` or decimal" (R50). -/
def numberOf : List Char → Option Nat
  | [] => none
  | ['0', 'x'] => none
  | '0' :: 'x' :: ds => digitsValue 16 0 ds
  | ds => digitsValue 10 0 ds

/-- "Bytes in braces are two hex digits without `0x`" (R50). -/
def byteOf : List Char → Option Byte
  | [a, b] =>
    match hexDigit a, hexDigit b with
    | some x, some y => some (BitVec.ofNat 8 (x * 16 + y))
    | _, _ => none
  | _ => none

/-- The bytes up to the closing brace, which ends the line. -/
def dataOf : List Token → Option (List Byte)
  | [.closeData] => some []
  | .word w :: ts =>
    match byteOf w, dataOf ts with
    | some b, some bs => some (b :: bs)
    | _, _ => none
  | _ => none

/-- What follows the mnemonic: numbers, then perhaps a data operand; none stands for the empty one. -/
def operandsOf : List Token → Option (List Nat × List Byte)
  | [] => some ([], [])
  | .openData :: ts => (dataOf ts).map (fun bs => ([], bs))
  | .word w :: ts =>
    match numberOf w, operandsOf ts with
    | some n, some (ns, bs) => some (n :: ns, bs)
    | _, _ => none
  | .closeData :: _ => none

/-- The mnemonics of R42, and the two pseudo-instructions of R51. -/
inductive Mnemonic where
  | crcInit | crcUpdate | crcRead | crcSeq | fieldCheck | frame | scale | desc | decode | crcBytes | checkGroup
  deriving DecidableEq, Repr

/-- How a mnemonic is written. -/
def Mnemonic.chars : Mnemonic → List Char
  | .crcInit => ['C', 'R', 'C', '_', 'I', 'N', 'I', 'T']
  | .crcUpdate => ['C', 'R', 'C', '_', 'U', 'P', 'D', 'A', 'T', 'E']
  | .crcRead => ['C', 'R', 'C', '_', 'R', 'E', 'A', 'D']
  | .crcSeq => ['C', 'R', 'C', '_', 'S', 'E', 'Q']
  | .fieldCheck => ['F', 'I', 'E', 'L', 'D', '_', 'C', 'H', 'E', 'C', 'K']
  | .frame => ['F', 'R', 'A', 'M', 'E']
  | .scale => ['S', 'C', 'A', 'L', 'E']
  | .desc => ['D', 'E', 'S', 'C']
  | .decode => ['D', 'E', 'C', 'O', 'D', 'E']
  | .crcBytes => ['C', 'R', 'C', '_', 'B', 'Y', 'T', 'E', 'S']
  | .checkGroup => ['C', 'H', 'E', 'C', 'K', '_', 'G', 'R', 'O', 'U', 'P']

/-- Every mnemonic once. -/
def allMnemonics : List Mnemonic :=
  [ .crcInit, .crcUpdate, .crcRead, .crcSeq, .fieldCheck, .frame, .scale, .desc, .decode, .crcBytes, .checkGroup ]

/-- A number that fits a byte. -/
def byteOfNat (n : Nat) : Option Byte := if n < 256 then some (BitVec.ofNat 8 n) else none

/-- The byte operands of CRC_BYTES. -/
def bytesOfNats : List Nat → Option (List Byte)
  | [] => some []
  | n :: ns =>
    match byteOfNat n, bytesOfNats ns with
    | some b, some bs => some (b :: bs)
    | _, _ => none

/-- The requests of a mnemonic with its operands (R50, R51). The data length is the block's to check (R45), not the
assembler's. -/
def requestsOf : Mnemonic → List Nat → List Byte → Option (List Request)
  | .crcInit, [], bs => some [requestOf .crcInit bs]
  | .crcUpdate, [n], bs => (byteOfNat n).map (fun b => [requestOf (.crcUpdate b) bs])
  | .crcRead, [], bs => some [requestOf .crcRead bs]
  | .crcSeq, [], bs => some [requestOf .crcSeq bs]
  | .fieldCheck, [], bs => some [requestOf .fieldCheck bs]
  | .frame, [n], bs => (byteOfNat n).map (fun b => [requestOf (.frame b) bs])
  | .scale, [k], bs => if k < 16 then some [requestOf (.scale (BitVec.ofNat 4 k)) bs] else none
  | .desc, [k], bs => if k < 16 then some [requestOf (.desc (BitVec.ofNat 4 k)) bs] else none
  | .decode, [], bs => some [requestOf .decode bs]
  | .crcBytes, ns, [] => (bytesOfNats ns).map crcBytes
  | .checkGroup, [g], bs => (checkGroup g bs).map (fun r => [r])
  | _, _, _ => none

/-- The requests a line stands for (R50, R51); none where it is no line of the syntax. -/
def assembleLine (line : List Char) : Option (List Request) :=
  match lexLine [] line with
  | .word m :: ts =>
    match allMnemonics.find? (fun x => x.chars == m), operandsOf ts with
    | some x, some (ns, bs) => requestsOf x ns bs
    | _, _ => none
  | _ => none

/-- A hex digit, capital. -/
def hexChar (n : Nat) : Char := Char.ofNat (if n < 10 then 48 + n else 55 + n)

/-- A byte as two hex digits. -/
def byteChars (b : Byte) : List Char := [hexChar (b.toNat / 16), hexChar (b.toNat % 16)]

/-- Bytes between braces, one space between two (R50). -/
def dataChars (bs : List Byte) : List Char :=
  openBrace :: ([' '].intercalate (bs.map byteChars) ++ [closeBrace])

/-- The mnemonic of an instruction, and its command-word operand where it has one. -/
def instrChars : Instr → List Char
  | .crcInit => Mnemonic.crcInit.chars
  | .crcUpdate b => Mnemonic.crcUpdate.chars ++ [' ', '0', 'x'] ++ byteChars b
  | .crcRead => Mnemonic.crcRead.chars
  | .crcSeq => Mnemonic.crcSeq.chars
  | .fieldCheck => Mnemonic.fieldCheck.chars
  | .frame n => Mnemonic.frame.chars ++ [' ', '0', 'x'] ++ byteChars n
  | .scale k => Mnemonic.scale.chars ++ [' ', '0', 'x', hexChar k.toNat]
  | .desc k => Mnemonic.desc.chars ++ [' ', '0', 'x', hexChar k.toNat]
  | .decode => Mnemonic.decode.chars

/-- A request as one line: the instruction, then its data operand in braces (R50). -/
def requestChars (i : Instr) (data : List Byte) : List Char := instrChars i ++ ' ' :: dataChars data

/-- A response, written `-> sNN` and the output in braces (R50). -/
def responseChars (r : Response) : List Char :=
  ['-', '>', ' ', 's'] ++ byteChars r.status ++ ' ' :: dataChars r.out

end Sys2Proof.Machine
end

