-- ==== Sys2Proof/Safety.lean ====
section
/-! DEFINITION. What counts as a safe state and a safe run, and the other terms the statements are written in. Each is
written from the spec's own words and numbers, not from the functions the meanings call. -/

namespace Sys2Proof.Machine

/-- The status bytes the block may return: 0x00, 0x10 to 0x17, 0x20, 0x30 (60_exceptions.md R85). -/
def legalStatus (v : Byte) : Bool :=
  v == 0x00 || (decide (0x10 ≤ v.toNat) && decide (v.toNat ≤ 0x17)) || v == 0x20 || v == 0x30

/-- A response as R85 and R29 allow it: a legal status byte, and an empty output unless the status is success. -/
def Response.legal (r : Response) : Bool := legalStatus r.status && (r.status == 0x00 || r.out.isEmpty)

/-- A state between steps: `BUSY` is 0 and no operand is held (10_state.md R24, R26), and every response returned so far is
legal (R85, R29). -/
structure State.Inv (s : State) : Prop where
  idle : s.busy = false
  noOperand : s.data = []
  legalResponses : ∀ r ∈ s.responses, r.legal = true

/-- `k` steps from `s` end in `t`, none of them a fault or a refusal (70_reset_and_hazards.md R108). -/
def RunsTo (k : Nat) (s t : State) : Prop := Sys2Proof.core.run k s = .next t

/-- `s` after its request is answered: `ACC` is `acc`, the port is idle, the response is returned, and every other field
is unchanged (R84). -/
def State.answered (s : State) (acc status : Byte) (out : List Byte) : State :=
  { acc := acc
    busy := false
    params := s.params
    data := []
    inputs := s.inputs
    responses := s.responses ++ [⟨status, out⟩] }

/-- The data operand is no longer than `P_MAX_DATA` allows (00_scope.md R8 (b), 30_encoding.md R45). -/
def Admits (p : Params) (data : List Byte) : Prop := ∀ m, p.maxData = some m → data.length ≤ m

/-- The response a run operation returned. -/
def responseOf (o : Host.Outcome State Fault Refusal) : Option Response :=
  match o with
  | .next t => t.responses.getLast?
  | .fault _ => none
  | .refused _ => none

/-- The match column of R42 with the operand in its place: the command word as a number. -/
def tableWord : Instr → Nat
  | .crcInit => 0x0000
  | .crcUpdate b => 0x1000 + b.toNat
  | .crcRead => 0x2000
  | .crcSeq => 0x3000
  | .fieldCheck => 0x4000
  | .frame n => 0x5000 + n.toNat
  | .scale k => 0x6000 + 256 * k.toNat
  | .desc k => 0x7000 + 256 * k.toNat
  | .decode => 0x8000

/-- Whether a command word is CRC_INIT or CRC_UPDATE, the operations that write `ACC` (10_state.md R17). -/
def writesAcc (w : CmdWord) : Bool := w.toNat == 0x0000 || (decide (0x1000 ≤ w.toNat) && decide (w.toNat ≤ 0x10FF))

/-- Group `g` of a buffer carries the checksum of its value bytes (20_memory.md R32, R34). -/
def GroupMatches (data : List Byte) (g : Nat) : Prop :=
  ∃ v0 v1 c, data[3 * g]? = some v0 ∧ data[3 * g + 1]? = some v1 ∧ data[3 * g + 2]? = some c ∧ crc8 [v0, v1] = c

/-- `last` of R76: the index of the last group DECODE checks. -/
def lastChecked (p : Params) : Nat := if p.checkTrailing then 7 else 6

/-- The raw word of two bytes (00_scope.md R10). -/
def rawWord (hi lo : Byte) : Nat := hi.toNat * 256 + lo.toNat

/-- The numerator of field `k` for a raw word: unsigned in fields 0 to 3, two's complement in fields 4 to 6 (42_scaler.md
R67, R69 to R72, 00_scope.md R10). -/
def fieldNum (k raw : Nat) : Int := if k ≤ 3 then raw else if 32768 ≤ raw then (raw : Int) - 65536 else raw

/-- The divisor of field `k` (10_state.md R20). -/
def fieldDen (k : Nat) : Nat := if k = 4 then 100 else if k = 5 then 200 else 10

/-- `enc_rat(n, d)` as numbers (42_scaler.md R68). -/
def encRatNat (n : Int) (d : Nat) : List Nat :=
  let t := (n % 4294967296).toNat
  [t / 16777216, t / 65536 % 256, t / 256 % 256, t % 256, d]

end Sys2Proof.Machine
end

