-- ==== Sys2Proof/Certificates/Slice0/Obligations.lean ====
section
/-! DEFINITION. The statements for the provers. Each docstring names the rules of spec/ it rests on. A result statement's
conclusion is an equation for the whole next state (State.answered), so it is the completion statement and the frame too. -/

open Sys2Proof Sys2Proof.Machine

/-! ### Encoding -/

/-- 30_encoding.md R42, 95_test_vectors.md section 3: words of the spec decode to their operation, others to none. -/
def Obligations.SpecWordsDecode : Prop :=
  decodeTableWord 16 0x0000 = some .crcInit ∧ decodeTableWord 16 0x10BE = some (.crcUpdate 0xBE) ∧
  decodeTableWord 16 0x2000 = some .crcRead ∧ decodeTableWord 16 0x3000 = some .crcSeq ∧
  decodeTableWord 16 0x4000 = some .fieldCheck ∧ decodeTableWord 16 0x5008 = some (.frame 8) ∧
  decodeTableWord 16 0x6500 = some (.scale 5) ∧ decodeTableWord 16 0x7600 = some (.desc 6) ∧
  decodeTableWord 16 0x8000 = some .decode ∧ decodeTableWord 16 0x7700 = none ∧
  decodeTableWord 16 0x9000 = none ∧ decodeTableWord 16 0x0100 = none

/-- Decode and encode agree for every well-formed instruction (R42). -/
def Obligations.DecodeOfEncode : Prop :=
  ∀ i : Instr, i.wellFormed = true → decodeWord (encode i) = .ok i

/-- R48, R49: of all 65536 words, exactly those of R42's table decode, each to its one operation. -/
def Obligations.DecodeIsTheOpcodeMap : Prop :=
  ∀ (w : CmdWord) (i : Instr), decodeWord w = .ok i ↔ (i.wellFormed = true ∧ w.toNat = tableWord i)

/-- R33, R41: on a byte-wide port the word goes high byte first, then the data; the decoder reads it back. -/
def Obligations.BytePortRoundTrip : Prop :=
  ∀ (i : Instr) (data : List Byte), i.wellFormed = true →
    (encodeBytes i data).map BitVec.toNat = (tableWord i / 256) :: (tableWord i % 256) :: data.map BitVec.toNat ∧
    decodeBytes (encodeBytes i data) = .ok (i, data)

/-! ### The step, the port and reset -/

/-- 20_memory.md R31, R37, 30_encoding.md R49: a step on a request at an idle port runs the decoded instruction, in the
state that holds its data operand and no longer holds the request. -/
def Obligations.StepRunsDecodedInstruction : Prop :=
  ∀ (s : State) (r : Request) (rest : List PortEvent) (i : Instr),
    s.inputs = .request r :: rest → s.busy = false → decodeWord r.word = .ok i →
    step s = exec i { s with busy := true, data := r.data, inputs := rest }

/-- The host's interface: a word placed by withFetchWord is the one the next step runs, with a data operand of zeros as long
as its operation needs, and nothing else changed (the model's convention, log 5). -/
def Obligations.FetchWordIsRunNext : Prop :=
  ∀ (s : State) (w : Nat) (i : Instr), decodeTableWord 16 w = some i →
    step (s.withFetchWord 16 w) = exec i { s with busy := true, data := List.replicate (requestDataLen i) 0 }

/-- R46: an operation code 0x9 to 0xF raises IllegalOperation whatever the data operand, with an empty output and no state
change. -/
def Obligations.ReservedOpcodeIsIllegal : Prop :=
  ∀ (s : State) (r : Request) (rest : List PortEvent),
    s.inputs = .request r :: rest → s.busy = false → 0x9000 ≤ r.word.toNat →
    step s = .next ({ s with inputs := rest }.answered s.acc 0x30 [])

/-- R47: a word below 0x9000 whose must-be-zero field is not 0, or whose field index is 7..15, or a data operand of a wrong
fixed length or over P_MAX_DATA, raises IllegalOperation with an empty output and no state change. -/
def Obligations.MalformedRequestIsIllegal : Prop :=
  ∀ (s : State) (r : Request) (rest : List PortEvent),
    s.inputs = .request r :: rest → s.busy = false →
    (let opc := r.word.toNat / 4096
     let k := r.word.toNat / 256 % 16
     let imm := r.word.toNat % 256
     (opc ≤ 8 ∧ opc ≠ 6 ∧ opc ≠ 7 ∧ k ≠ 0) ∨
     (opc ≤ 8 ∧ opc ≠ 1 ∧ opc ≠ 5 ∧ imm ≠ 0) ∨
     ((opc = 6 ∨ opc = 7) ∧ 7 ≤ k) ∨
     ((opc = 0 ∨ opc = 1 ∨ opc = 2 ∨ opc = 7) ∧ r.data.length ≠ 0) ∨
     (opc = 4 ∧ r.data.length ≠ 3) ∨
     (opc = 6 ∧ r.data.length ≠ 2) ∨
     (opc ≤ 8 ∧ ¬ Admits s.params r.data)) →
    step s = .next ({ s with inputs := rest }.answered s.acc 0x30 [])

/-- R31: a request presented while BUSY is 1 is not accepted: there is no next state. -/
def Obligations.BusyPortTakesNoRequest : Prop :=
  ∀ (s : State) (r : Request) (rest : List PortEvent),
    s.inputs = .request r :: rest → s.busy = true → ∀ t, step s ≠ .next t

/-- R97, R99: reset sets ACC to 0xFF and BUSY to 0, even with a request in service, whose operand is dropped and for which no
response is returned; nothing else changes (the event's form is the model's, log 6). -/
def Obligations.ResetEventResetsTheBlock : Prop :=
  ∀ (s : State) (rest : List PortEvent), s.inputs = .reset :: rest →
    step s = .next { s with acc := 0xFF, busy := false, data := [], inputs := rest }

/-- R97: the state after reset. -/
def Obligations.ResetStateIsIdleWithInit : Prop :=
  State.reset.acc = 0xFF ∧ State.reset.busy = false

/-- R98: after a reset the first CRC_READ returns 0xFF, and a first CRC_UPDATE computes as if CRC_INIT had been issued. -/
def Obligations.FirstRequestAfterReset : Prop :=
  ∀ (s : State) (b : Byte) (rest : List PortEvent),
    (s.inputs = .reset :: .request ⟨0x2000, []⟩ :: rest →
      ∃ t, RunsTo 2 s t ∧ t.responses = s.responses ++ [⟨0x00, [0xFF]⟩] ∧ t.acc = 0xFF) ∧
    (s.inputs = .reset :: .request ⟨encode (.crcUpdate b), []⟩ :: rest →
      ∃ t u, RunsTo 2 s t ∧
        RunsTo 2 { s with
          busy := false
          inputs := .request ⟨0x0000, []⟩ :: .request ⟨encode (.crcUpdate b), []⟩ :: rest } u ∧ t.acc = u.acc)

/-- The invariant holds after reset. -/
def Obligations.ResetMeetsInv : Prop := State.reset.Inv

/-- R24, R26, R85, R29: BUSY is 0 and no operand is held between steps, and every response is legal; every step keeps it. -/
def Obligations.StepKeepsInv : Prop :=
  ∀ s t : State, s.Inv → step s = .next t → t.Inv

/-- R83, R84, R85: every accepted request, whatever its word and data, ends in exactly one response, with a legal status
byte, and leaves the port idle. -/
def Obligations.EveryRequestGetsOneLegalResponse : Prop :=
  ∀ (s : State) (r : Request) (rest : List PortEvent),
    s.inputs = .request r :: rest → s.busy = false →
    ∃ t resp, step s = .next t ∧ t.responses = s.responses ++ [resp] ∧ resp.legal = true ∧
      t.busy = false ∧ t.data = [] ∧ t.inputs = rest ∧ t.params = s.params

/-- R17: ACC is written only by CRC_INIT, CRC_UPDATE and reset. -/
def Obligations.OnlyInitUpdateResetWriteAcc : Prop :=
  ∀ s t : State, step s = .next t → t.acc ≠ s.acc →
    (∃ rest, s.inputs = .reset :: rest) ∨
    (∃ r rest, s.inputs = .request r :: rest ∧ writesAcc r.word = true)

/-- R17: ACC is read only by CRC_UPDATE and CRC_READ: no other operation's response depends on it, and what the others leave
in ACC is its old value or 0xFF. -/
def Obligations.OnlyUpdateReadReadAcc : Prop :=
  ∀ (i : Instr) (s : State) (a : Byte), (∀ b, i ≠ .crcUpdate b) → i ≠ .crcRead →
    ∃ t u, exec i s = .next t ∧ exec i { s with acc := a } = .next u ∧ u = { t with acc := u.acc } ∧
      ((t.acc = s.acc ∧ u.acc = a) ∨ (t.acc = 0xFF ∧ u.acc = 0xFF))

/-- R86: a request whose response is an error has an empty output and leaves ACC as it was. -/
def Obligations.ErrorsChangeNoState : Prop :=
  ∀ (s t : State) (r : Request) (rest : List PortEvent) (resp : Response),
    s.inputs = .request r :: rest → step s = .next t → t.responses = s.responses ++ [resp] → resp.status ≠ 0x00 →
    t = { s with inputs := rest }.answered s.acc resp.status []

/-- R23: whatever requests but a CRC_INIT or CRC_UPDATE come between, ACC persists through them; among them a failed CRC_INIT
or CRC_UPDATE (one with data bytes). -/
def Obligations.AccPersistsThroughPureRequests : Prop :=
  ∀ (reqs : List Request) (s : State) (rest : List PortEvent),
    (∀ r ∈ reqs, writesAcc r.word = false ∨ r.data ≠ []) → s.inputs = reqs.map .request ++ rest → s.busy = false →
    ∃ t, RunsTo reqs.length s t ∧ t.acc = s.acc ∧ t.inputs = rest ∧ t.busy = false ∧
      t.responses.length = s.responses.length + reqs.length

/-- R88: which operation can return which status. -/
def Obligations.StatusesPerOperation : Prop :=
  ∀ (i : Instr) (s : State), ∃ t resp, exec i s = .next t ∧ t.responses = s.responses ++ [resp] ∧
    (resp.status = 0x00 ∨ resp.status = 0x30 ∨
      (((∃ n, i = .frame n) ∨ i = .decode) ∧ resp.status = 0x20) ∨
      (i = .decode ∧ 0x10 ≤ resp.status.toNat ∧ resp.status.toNat ≤ 0x17))

/-- R89: when several errors apply, the first of IllegalOperation, FramingError, ChecksumError is the one reported. -/
def Obligations.DecodeReportsTheFirstError : Prop :=
  ∀ s : State, ∃ t resp, exec .decode s = .next t ∧ t.responses = s.responses ++ [resp] ∧
    (¬ Admits s.params s.data → resp.status = 0x30) ∧
    (Admits s.params s.data → s.data.length ≠ 24 → resp.status = 0x20) ∧
    (Admits s.params s.data → s.data.length = 24 → (∃ g, g ≤ lastChecked s.params ∧ ¬ GroupMatches s.data g) →
      ∃ g, g ≤ lastChecked s.params ∧ ¬ GroupMatches s.data g ∧ (∀ j, j < g → GroupMatches s.data j) ∧
        resp.status.toNat = 0x10 + g)

/-! ### Results: checksum engine -/

/-- R54, in numbers: exclusive-or the byte in, then 8 rounds of a left shift modulo 256, with 0x31 exclusive-ored in after the
shift where the high bit was set before it. -/
def Obligations.CrcStepIsEightRounds : Prop :=
  ∀ a b : Byte, (crc8Step a b).toNat =
    (fun x : Nat => if 128 ≤ x then (2 * x % 256) ^^^ 0x31 else 2 * x % 256)^[8] (a.toNat ^^^ b.toNat)

/-- R55: start from 0xFF and apply the step to each byte in index order, with nothing after the last. -/
def Obligations.CrcOfSequence : Prop :=
  crc8 [] = 0xFF ∧ ∀ (bytes : List Byte) (b : Byte), crc8 (bytes ++ [b]) = crc8Step (crc8 bytes) b

/-- R56, with its encoding and its error. -/
def Obligations.CrcInitResult : Prop :=
  (encode .crcInit).toNat = 0x0000 ∧
  ∀ s : State,
    (s.data = [] → exec .crcInit s = .next (s.answered 0xFF 0x00 [])) ∧
    (s.data ≠ [] → exec .crcInit s = .next (s.answered s.acc 0x30 []))

/-- R57, with its encoding and its error. -/
def Obligations.CrcUpdateResult : Prop :=
  ∀ b : Byte, (encode (.crcUpdate b)).toNat = 0x1000 + b.toNat ∧
  ∀ s : State,
    (s.data = [] → exec (.crcUpdate b) s = .next (s.answered (crc8Step s.acc b) 0x00 [])) ∧
    (s.data ≠ [] → exec (.crcUpdate b) s = .next (s.answered s.acc 0x30 []))

/-- R58, with its encoding and its error. -/
def Obligations.CrcReadResult : Prop :=
  (encode .crcRead).toNat = 0x2000 ∧
  ∀ s : State,
    (s.data = [] → exec .crcRead s = .next (s.answered s.acc 0x00 [s.acc])) ∧
    (s.data ≠ [] → exec .crcRead s = .next (s.answered s.acc 0x30 []))

/-- R59, with its encoding and its error. -/
def Obligations.CrcSeqResult : Prop :=
  (encode .crcSeq).toNat = 0x3000 ∧
  ∀ s : State,
    (Admits s.params s.data → exec .crcSeq s = .next (s.answered s.acc 0x00 [crc8 s.data])) ∧
    (¬ Admits s.params s.data → exec .crcSeq s = .next (s.answered s.acc 0x30 []))

/-- R60, with its encoding and its error: the match byte and the computed checksum; a mismatch is no error. -/
def Obligations.FieldCheckResult : Prop :=
  (encode .fieldCheck).toNat = 0x4000 ∧
  ∀ s : State,
    (∀ v0 v1 c : Byte, s.data = [v0, v1, c] → Admits s.params s.data →
      (crc8 [v0, v1] = c → exec .fieldCheck s = .next (s.answered s.acc 0x00 [0x01, crc8 [v0, v1]])) ∧
      (crc8 [v0, v1] ≠ c → exec .fieldCheck s = .next (s.answered s.acc 0x00 [0x00, crc8 [v0, v1]]))) ∧
    (s.data.length ≠ 3 ∨ ¬ Admits s.params s.data → exec .fieldCheck s = .next (s.answered s.acc 0x30 []))

/-- R45, R8 (b): in every operation a data operand longer than P_MAX_DATA raises IllegalOperation. -/
def Obligations.OversizeDataIsIllegalEverywhere : Prop :=
  ∀ (i : Instr) (s : State), ¬ Admits s.params s.data → exec i s = .next (s.answered s.acc 0x30 [])

/-! ### Results: framer -/

/-- R64, R66, with its encoding: on the right length FRAME answers the buffer itself, whatever its checksum bytes are. -/
def Obligations.FrameResult : Prop :=
  ∀ n : Byte, (encode (.frame n)).toNat = 0x5000 + n.toNat ∧
  ∀ s : State,
    (s.data.length = 3 * n.toNat → Admits s.params s.data →
      exec (.frame n) s = .next (s.answered s.acc 0x00 s.data)) ∧
    (s.data.length ≠ 3 * n.toNat → Admits s.params s.data →
      exec (.frame n) s = .next (s.answered s.acc 0x20 [])) ∧
    (¬ Admits s.params s.data → exec (.frame n) s = .next (s.answered s.acc 0x30 []))

/-- R65: the framing condition is exact: FRAME succeeds on the length 3n and on no other, and a wrong length of any kind gets
no partial output. -/
def Obligations.FramingConditionIsExact : Prop :=
  ∀ (n : Byte) (s : State), Admits s.params s.data →
    ((∃ out, responseOf (exec (.frame n) s) = some ⟨0x00, out⟩) ↔ s.data.length = 3 * n.toNat) ∧
    (s.data.length ≠ 3 * n.toNat → responseOf (exec (.frame n) s) = some ⟨0x20, []⟩)

/-- R63: the framed groups, by index. -/
def Obligations.FrameGroupsByIndex : Prop :=
  ∀ (data : List Byte) (n : Nat),
    (data.length ≠ 3 * n → frameGroups data n = none) ∧
    (data.length = 3 * n → ∃ groups, frameGroups data n = some groups ∧ groups.length = n ∧
      ∀ g, g < n → ∃ v0 v1 c gr, data[3 * g]? = some v0 ∧ data[3 * g + 1]? = some v1 ∧ data[3 * g + 2]? = some c ∧
        groups[g]? = some gr ∧ gr.value.toNat = rawWord v0 v1 ∧ gr.chk = c)

/-! ### Results: scaler -/

/-- R73, R20, R43, with its encoding and its errors: the descriptor of each field. -/
def Obligations.DescResult : Prop :=
  ∀ k : FieldIndex, (encode (.desc k)).toNat = 0x7000 + 256 * k.toNat ∧
  ∀ s : State,
    (s.data = [] → k.toNat ≤ 6 →
      exec (.desc k) s = .next (s.answered s.acc 0x00
        (if k.toNat ≤ 3 then [0x00, 0x0A, 0x00] else if k.toNat = 4 then [0x01, 0x64, 0x01]
          else if k.toNat = 5 then [0x01, 0xC8, 0x02] else [0x01, 0x0A, 0x03]))) ∧
    (7 ≤ k.toNat ∨ s.data ≠ [] → exec (.desc k) s = .next (s.answered s.acc 0x30 []))

/-- R74, R67, R68, R43, with its encoding and its errors: the encoded exact rational of the raw word in its field. -/
def Obligations.ScaleResult : Prop :=
  ∀ k : FieldIndex, (encode (.scale k)).toNat = 0x6000 + 256 * k.toNat ∧
  ∀ s : State,
    (∀ hi lo : Byte, s.data = [hi, lo] → Admits s.params s.data → k.toNat ≤ 6 →
      ∃ out, exec (.scale k) s = .next (s.answered s.acc 0x00 out) ∧
        out.map BitVec.toNat = encRatNat (fieldNum k.toNat (rawWord hi lo)) (fieldDen k.toNat)) ∧
    (7 ≤ k.toNat ∨ s.data.length ≠ 2 ∨ ¬ Admits s.params s.data →
      exec (.scale k) s = .next (s.answered s.acc 0x30 []))

/-- R69 to R72: the physical value of every raw word in every field, as an exact rational. -/
def Obligations.PhysicalValues : Prop :=
  ∀ v : Word,
    (∀ k : FieldIndex, k.toNat ≤ 3 → ∃ d, descOf k = some d ∧ (scaleBy d v).value = (v.toNat : Rat) / 10 ∧
      0 ≤ (scaleBy d v).value ∧ (scaleBy d v).value ≤ 65535 / 10) ∧
    (∃ d, descOf 4 = some d ∧ (scaleBy d v).value = (v.toInt : Rat) / 100) ∧
    (∃ d, descOf 5 = some d ∧ (scaleBy d v).value = (v.toInt : Rat) / 200) ∧
    (∃ d, descOf 6 = some d ∧ (scaleBy d v).value = (v.toInt : Rat) / 10)

/-- R75 (c): fields 0 to 3 are never negative; fields 4 to 6 are negative exactly when bit 15 of the raw word is 1. -/
def Obligations.NegativeExactlyBySignBit : Prop :=
  ∀ (k : FieldIndex) (d : Descriptor) (v : Word), descOf k = some d →
    ((scaleBy d v).value < 0 ↔ (4 ≤ k.toNat ∧ 32768 ≤ v.toNat))

/-- R75 (d): within a field the value is strictly increasing in zext_16 (fields 0 to 3) and in sext_16 (fields 4 to 6). -/
def Obligations.ScalingIsStrictlyMonotone : Prop :=
  ∀ (k : FieldIndex) (d : Descriptor) (v w : Word), descOf k = some d →
    (k.toNat ≤ 3 → ((scaleBy d v).value < (scaleBy d w).value ↔ v.toNat < w.toNat)) ∧
    (4 ≤ k.toNat → ((scaleBy d v).value < (scaleBy d w).value ↔ v.toInt < w.toInt))

/-- R68: what the block produces lies in the stated ranges, and its encoding decodes back uniquely. -/
def Obligations.EncRatDecodesUniquely : Prop :=
  (∀ (k : FieldIndex) (d : Descriptor) (v : Word), descOf k = some d →
    -32768 ≤ (scaleBy d v).num ∧ (scaleBy d v).num ≤ 65535 ∧ (d.den = 10 ∨ d.den = 100 ∨ d.den = 200)) ∧
  (∀ x y : Scaled, -32768 ≤ x.num → x.num ≤ 65535 → -32768 ≤ y.num → y.num ≤ 65535 →
    encRat x = encRat y → x = y)

/-! ### Results: measurement decoder -/

/-- R76, R79, R80: where every checked group matches, DECODE answers 35 bytes, field k at bytes 5k to 5k+4. -/
def Obligations.DecodeResult : Prop :=
  ∀ s : State, s.data.length = 24 → Admits s.params s.data →
    (∀ g, g ≤ lastChecked s.params → GroupMatches s.data g) →
    ∃ out, exec .decode s = .next (s.answered s.acc 0x00 out) ∧ out.length = 35 ∧
      ∀ k, k ≤ 6 → ∃ hi lo, s.data[3 * k]? = some hi ∧ s.data[3 * k + 1]? = some lo ∧
        ((out.drop (5 * k)).take 5).map BitVec.toNat = encRatNat (fieldNum k (rawWord hi lo)) (fieldDen k)

/-- R76, R77, R78: the lowest failing checked group is named, with an empty output. -/
def Obligations.DecodeChecksumError : Prop :=
  ∀ (s : State) (g : Nat), s.data.length = 24 → Admits s.params s.data → g ≤ lastChecked s.params →
    ¬ GroupMatches s.data g → (∀ j, j < g → GroupMatches s.data j) →
    exec .decode s = .next (s.answered s.acc (0x10 + BitVec.ofNat 8 g) [])

/-- R76: a buffer of any length but 24 is a FramingError. -/
def Obligations.DecodeWrongLength : Prop :=
  ∀ s : State, s.data.length ≠ 24 → Admits s.params s.data →
    exec .decode s = .next (s.answered s.acc 0x20 [])

/-- R79: without P_CHECK_TRAILING bytes 21 to 23 do not matter: two buffers that differ only there get one response. -/
def Obligations.TrailingGroupIgnoredWhenUnchecked : Prop :=
  ∀ (s : State) (buf tail tail' : List Byte), s.params.checkTrailing = false → buf.length = 21 →
    tail.length = 3 → tail'.length = 3 →
    ∃ r, responseOf (exec .decode { s with data := buf ++ tail }) = some r ∧
      responseOf (exec .decode { s with data := buf ++ tail' }) = some r

/-- R81: DECODE's response is a function of the data operand and the parameters alone, and it writes no state. -/
def Obligations.DecodeIsPure : Prop :=
  ∀ s u : State, s.data = u.data → s.params = u.params →
    ∃ r : Response, exec .decode s = .next (s.answered s.acc r.status r.out) ∧ exec .decode u = .next (u.answered u.acc r.status r.out)

/-- R82: DECODE of a 24-byte buffer succeeds exactly when FRAME 8 does and FIELD_CHECK matches every checked group, and its
output is then the concatenation of the outputs of SCALE. -/
def Obligations.DecodeAgreesWithItsParts : Prop :=
  ∀ (s : State) (data : List Byte), data.length = 24 → Admits s.params data →
    let ans (i : Instr) (d : List Byte) : Option Response := responseOf (exec i { s with data := d })
    let group (g n : Nat) : List Byte := (data.drop (3 * g)).take n
    ((∃ out, ans .decode data = some ⟨0x00, out⟩) ↔
      ((∃ out, ans (.frame 8) data = some ⟨0x00, out⟩) ∧
        ∀ g, g ≤ lastChecked s.params → ∃ c, ans .fieldCheck (group g 3) = some ⟨0x00, [0x01, c]⟩)) ∧
    (∀ out, ans .decode data = some ⟨0x00, out⟩ →
      ∃ o0 o1 o2 o3 o4 o5 o6, ans (.scale 0) (group 0 2) = some ⟨0x00, o0⟩ ∧
        ans (.scale 1) (group 1 2) = some ⟨0x00, o1⟩ ∧ ans (.scale 2) (group 2 2) = some ⟨0x00, o2⟩ ∧
        ans (.scale 3) (group 3 2) = some ⟨0x00, o3⟩ ∧ ans (.scale 4) (group 4 2) = some ⟨0x00, o4⟩ ∧
        ans (.scale 5) (group 5 2) = some ⟨0x00, o5⟩ ∧ ans (.scale 6) (group 6 2) = some ⟨0x00, o6⟩ ∧
        out = o0 ++ o1 ++ o2 ++ o3 ++ o4 ++ o5 ++ o6)

/-! ### The checksum's algebra -/

/-- R62 (a), (b), (c): the step depends on the exclusive-or of its arguments alone, and is linear in it. -/
def Obligations.CrcStepIsLinear : Prop :=
  (∀ a b : Byte, crc8Step a b = crc8Step 0 (a ^^^ b)) ∧
  (∀ x y : Byte, crc8Step 0 (x ^^^ y) = crc8Step 0 x ^^^ crc8Step 0 y) ∧
  (∀ a : Byte, crc8Step a a = 0)

/-- R54 as polynomial arithmetic: the step multiplies by x^8 modulo x^8 + x^5 + x^4 + 1 (0x131), most significant bit
first; the eight powers of 95_test_vectors.md section 2's table fix it. -/
def Obligations.CrcStepOfPowers : Prop :=
  ∀ a b : Byte, crc8Step a b =
    (List.range 8).foldl
      (fun r j => if (a ^^^ b).getLsbD j
        then r ^^^ (([0x31, 0x62, 0xC4, 0xB9, 0x43, 0x86, 0x3D, 0x7A] : List Byte).getD j 0) else r) 0

/-- R62 (c): a sequence followed by its own checksum has checksum 0. -/
def Obligations.OwnChecksumLeavesZero : Prop :=
  ∀ bytes : List Byte, crc8 (bytes ++ [crc8 bytes]) = 0

/-- R62 (d): for a two-byte input every checksum value is reached by exactly one low byte for each high byte (so by
exactly 256 of the 65536 value words). -/
def Obligations.ChecksumsAreUniform : Prop :=
  ∀ hi c : Byte, ∃ lo, crc8 [hi, lo] = c ∧ ∀ lo', crc8 [hi, lo'] = c → lo' = lo

/-- R62 (d): FIELD_CHECK detects every error of one or two flipped bits anywhere in a group. -/
def Obligations.FieldCheckDetectsTwoBitErrors : Prop :=
  ∀ (s : State) (v0 v1 c e0 e1 e2 : Byte) (i j : Fin 24), crc8 [v0, v1] = c →
    e0 ++ e1 ++ e2 = (1#24 <<< i.val) ||| (1#24 <<< j.val) →
    s.data = [v0 ^^^ e0, v1 ^^^ e1, c ^^^ e2] → Admits s.params s.data →
    ∃ c', responseOf (exec .fieldCheck s) = some ⟨0x00, [0x00, c']⟩

/-- R61, R51: CRC_INIT, one CRC_UPDATE per byte, CRC_READ return the checksum of the bytes and leave it in ACC, for every
byte sequence and from every idle state. -/
def Obligations.StreamingEqualsPure : Prop :=
  ∀ (bytes : List Byte) (s : State) (rest : List PortEvent),
    s.inputs = (crcBytes bytes).map .request ++ rest → s.busy = false →
    ∃ t, RunsTo (bytes.length + 2) s t ∧ t.acc = crc8 bytes ∧ t.busy = false ∧ t.inputs = rest ∧
      t.responses = s.responses ++ List.replicate (bytes.length + 1) ⟨0x00, []⟩ ++ [⟨0x00, [crc8 bytes]⟩]

/-- R101: a CRC_INIT inside a stream discards the bytes `xs` folded before it, undetected: what is read in the end is the
checksum of the bytes after it (`ys`, then the stream's own later `zs`), every status is success, and the value is not the
checksum of the stream's own `xs ++ zs` exactly where the checksums of `xs` and `ys` differ. -/
def Obligations.InitInsideStreamDiscardsItsBytes : Prop :=
  ∀ (xs ys zs : List Byte) (s : State) (rest : List PortEvent),
    s.inputs = ((requestOf .crcInit [] :: xs.map (fun b => requestOf (.crcUpdate b) [])) ++
      crcBytes (ys ++ zs)).map .request ++ rest → s.busy = false →
    (∃ t, RunsTo (xs.length + ys.length + zs.length + 3) s t ∧ t.inputs = rest ∧ t.acc = crc8 (ys ++ zs) ∧
      t.responses = s.responses ++ List.replicate (xs.length + ys.length + zs.length + 2) ⟨0x00, []⟩ ++
        [⟨0x00, [crc8 (ys ++ zs)]⟩]) ∧
    (crc8 (ys ++ zs) ≠ crc8 (xs ++ zs) ↔ crc8 xs ≠ crc8 ys)

/-- R51: CHECK_GROUP is FIELD_CHECK of the three bytes of the group. -/
def Obligations.CheckGroupExpansion : Prop :=
  ∀ (buf : List Byte) (g : Nat) (v0 v1 c : Byte),
    buf[3 * g]? = some v0 → buf[3 * g + 1]? = some v1 → buf[3 * g + 2]? = some c →
    checkGroup g buf = some ⟨0x4000, [v0, v1, c]⟩

/-- R50: the line written for a request assembles to that request. -/
def Obligations.AssemblerRoundTrip : Prop :=
  ∀ (i : Instr) (data : List Byte), assembleLine (requestChars i data) = some [⟨encode i, data⟩]

/-! ### The block's state is ACC and BUSY -/

/-- R25, R8, R24, R28: an operation's answer is a function of ACC, the parameters and the data operand: what it leaves in ACC
and what it returns depend on nothing else, not on BUSY, the requests to come or the responses returned. -/
def Obligations.AnswerReadsAccAndArgumentsOnly : Prop :=
  ∀ (i : Instr) (s u : State), s.acc = u.acc → s.params = u.params → s.data = u.data →
    ∃ (acc : Byte) (r : Response),
      exec i s = .next (s.answered acc r.status r.out) ∧ exec i u = .next (u.answered acc r.status r.out)

/-- R25, R8: the pair of ACC and BUSY is the complete state: from two states with the same pair, the same parameters and the same
events at the port, whatever operand was held and whatever was returned before, runs of any length end in the same pair and
return the same responses; and no run writes the parameters. -/
def Obligations.AccAndBusyAreTheCompleteState : Prop :=
  ∀ (k : Nat) (s u t : State), s.toBlock = u.toBlock → s.params = u.params → s.inputs = u.inputs → RunsTo k s t →
    ∃ v new, RunsTo k u v ∧ v.toBlock = t.toBlock ∧ v.inputs = t.inputs ∧
      t.responses = s.responses ++ new ∧ v.responses = u.responses ++ new ∧ t.params = s.params ∧ v.params = u.params
end

