-- ==== Sys2Proof/Laws/State.lean ====
section
/-! SUPPORT. One lemma per field of Block and State and per update of the shared operations. -/

namespace Sys2Proof.Machine

/-! ### The block's own state -/

@[simp] theorem respond_acc (v : Byte) (out : List Byte) (b : Block) : (respond v out b).block.acc = b.acc := rfl
@[simp] theorem respond_busy (v : Byte) (out : List Byte) (b : Block) : (respond v out b).block.busy = false := rfl
@[simp] theorem respond_response (v : Byte) (out : List Byte) (b : Block) : (respond v out b).response = ⟨v, out⟩ := rfl

@[simp] theorem raiseError_acc (e : BlockError) (b : Block) : (raiseError e b).block.acc = b.acc := rfl
@[simp] theorem raiseError_busy (e : BlockError) (b : Block) : (raiseError e b).block.busy = false := rfl
@[simp] theorem raiseError_response (e : BlockError) (b : Block) : (raiseError e b).response = ⟨errorStatus e, []⟩ := rfl

@[simp] theorem writeAcc_acc (v : Byte) (b : Block) : (writeAcc v b).acc = v := rfl
@[simp] theorem writeAcc_busy (v : Byte) (b : Block) : (writeAcc v b).busy = b.busy := rfl

@[simp] theorem blockReset_acc : Block.reset.acc = init := rfl
@[simp] theorem blockReset_busy : Block.reset.busy = false := rfl

/-! ### The record a step works on -/

@[simp] theorem accept_acc (r : Request) (s : State) : (accept r s).acc = s.acc := rfl
@[simp] theorem accept_busy (r : Request) (s : State) : (accept r s).busy = true := rfl
@[simp] theorem accept_params (r : Request) (s : State) : (accept r s).params = s.params := rfl
@[simp] theorem accept_data (r : Request) (s : State) : (accept r s).data = r.data := rfl
@[simp] theorem accept_inputs (r : Request) (s : State) : (accept r s).inputs = s.inputs := rfl
@[simp] theorem accept_responses (r : Request) (s : State) : (accept r s).responses = s.responses := rfl

@[simp] theorem deliver_toBlock (a : Answer) (s : State) : (deliver a s).toBlock = a.block := rfl
@[simp] theorem deliver_params (a : Answer) (s : State) : (deliver a s).params = s.params := rfl
@[simp] theorem deliver_data (a : Answer) (s : State) : (deliver a s).data = [] := rfl
@[simp] theorem deliver_inputs (a : Answer) (s : State) : (deliver a s).inputs = s.inputs := rfl
@[simp] theorem deliver_responses (a : Answer) (s : State) : (deliver a s).responses = s.responses ++ [a.response] := rfl

@[simp] theorem resetBlock_toBlock (s : State) : (resetBlock s).toBlock = Block.reset := rfl
@[simp] theorem resetBlock_params (s : State) : (resetBlock s).params = s.params := rfl
@[simp] theorem resetBlock_data (s : State) : (resetBlock s).data = [] := rfl
@[simp] theorem resetBlock_inputs (s : State) : (resetBlock s).inputs = s.inputs := rfl
@[simp] theorem resetBlock_responses (s : State) : (resetBlock s).responses = s.responses := rfl

end Sys2Proof.Machine
end

