-- ==== Sys2Proof/Laws/Ops.lean ====
section
/-! SUPPORT. What the shared operations can do, said once: answering, raising, the data-operand check, serving, taking what
the port presents. -/

namespace Sys2Proof.Machine

/-- An answer that leaves the port idle, delivered: the whole next state. -/
theorem deliver_eq_answered {a : Answer} (h : a.block.busy = false) (s : State) :
    deliver a s = s.answered a.block.acc a.response.status a.response.out := by
  simp only [deliver, State.answered, ← h]

@[simp] theorem deliver_respond (v : Byte) (out : List Byte) (b : Block) (s : State) :
    deliver (respond v out b) s = s.answered b.acc v out := rfl

@[simp] theorem deliver_raiseError (e : BlockError) (b : Block) (s : State) :
    deliver (raiseError e b) s = s.answered b.acc (errorStatus e) [] := rfl

@[simp] theorem answered_acc (s : State) (a v : Byte) (out : List Byte) : (s.answered a v out).acc = a := rfl
@[simp] theorem answered_busy (s : State) (a v : Byte) (out : List Byte) : (s.answered a v out).busy = false := rfl
@[simp] theorem answered_params (s : State) (a v : Byte) (out : List Byte) :
    (s.answered a v out).params = s.params := rfl
@[simp] theorem answered_data (s : State) (a v : Byte) (out : List Byte) : (s.answered a v out).data = [] := rfl
@[simp] theorem answered_inputs (s : State) (a v : Byte) (out : List Byte) :
    (s.answered a v out).inputs = s.inputs := rfl
@[simp] theorem answered_responses (s : State) (a v : Byte) (out : List Byte) :
    (s.answered a v out).responses = s.responses ++ [⟨v, out⟩] := rfl

@[simp] theorem responseOf_answered (s : State) (a v : Byte) (out : List Byte) :
    responseOf (.next (s.answered a v out)) = some ⟨v, out⟩ := by
  simp [responseOf]

/-! ### The data-operand check -/

theorem exceedsMax_eq_false_iff (p : Params) (data : List Byte) : exceedsMax p data = false ↔ Admits p data := by
  unfold exceedsMax Admits
  cases p.maxData <;> simp

theorem exceedsMax_eq_true_iff (p : Params) (data : List Byte) : exceedsMax p data = true ↔ ¬ Admits p data := by
  rw [← exceedsMax_eq_false_iff, Bool.not_eq_false]

theorem admits_nil (p : Params) : Admits p [] := fun m _ => Nat.zero_le m

/-- The check passes exactly when the operand fits and has the fixed length, where there is one. -/
theorem dataMalformed_eq_false_iff (i : Instr) (p : Params) (data : List Byte) :
    dataMalformed i p data = false ↔ Admits p data ∧ ∀ n, fixedDataLen i = some n → data.length = n := by
  unfold dataMalformed
  rw [Bool.or_eq_false_iff, exceedsMax_eq_false_iff]
  cases fixedDataLen i <;> simp

/-- A malformed operand is answered IllegalOperation. -/
theorem answer_of_malformed {i : Instr} {rule : Rule} {p : Params} {data : List Byte} {b : Block}
    (h : dataMalformed i p data = true) : answer i rule p data b = raiseError .illegalOperation b := if_pos h

/-- A well-formed operand reaches the operation's rule. -/
theorem answer_of_fits {i : Instr} {rule : Rule} {p : Params} {data : List Byte} {b : Block} (hfit : Admits p data)
    (hlen : ∀ n, fixedDataLen i = some n → data.length = n) : answer i rule p data b = rule p data b := by
  rw [answer, (dataMalformed_eq_false_iff i p data).2 ⟨hfit, hlen⟩]
  rfl

/-! ### Taking what the port presents -/

theorem step_of_request {s : State} {r : Request} {rest : List PortEvent} (hin : s.inputs = .request r :: rest)
    (hidle : s.busy = false) : step s = runWord r.word (accept r { s with inputs := rest }) := by
  simp [step, takeInput, hin, takeRequest, hidle]

theorem step_of_reset {s : State} {rest : List PortEvent} (hin : s.inputs = .reset :: rest) :
    step s = .next (resetBlock { s with inputs := rest }) := by
  simp [step, takeInput, hin]

/-- Where a step goes on: it took a request at an idle port, or a reset. -/
theorem step_next_cases {s t : State} (h : step s = .next t) :
    (∃ r rest, s.inputs = .request r :: rest ∧ s.busy = false ∧
      runWord r.word (accept r { s with inputs := rest }) = .next t) ∨
    (∃ rest, s.inputs = .reset :: rest ∧ t = resetBlock { s with inputs := rest }) := by
  rcases hin : s.inputs with _ | ⟨ev, rest⟩
  · simp [step, takeInput, hin] at h
  · rcases ev with r | _
    · by_cases hb : s.busy = true
      · simp [step, takeInput, hin, takeRequest, hb] at h
      · have hidle : s.busy = false := by simpa using hb
        exact .inl ⟨r, rest, rfl, hidle, by rw [← step_of_request hin hidle, h]⟩
    · rw [step_of_reset hin] at h
      exact .inr ⟨rest, rfl, by injection h with h; exact h.symm⟩

/-! ### Runs -/

theorem runsTo_zero (s : State) : RunsTo 0 s s := rfl

theorem runsTo_succ {k : Nat} {s t u : State} (h : step s = .next t) (hrun : RunsTo k t u) : RunsTo (k + 1) s u := by
  have h : Sys2Proof.core.step s = .next t := h
  simp only [RunsTo, Host.Core.run, h]
  exact hrun

/-- Two runs, one after the other, are a run. -/
theorem runsTo_add {j k : Nat} {s t u : State} (hj : RunsTo j s t) (hk : RunsTo k t u) : RunsTo (j + k) s u := by
  induction j generalizing s with
  | zero => cases hj; simpa using hk
  | succ j ih =>
    simp only [RunsTo, Host.Core.run] at hj
    rw [Nat.succ_add]
    split at hj
    · rename_i hstep
      exact runsTo_succ hstep (ih hj)
    · cases hj
    · cases hj

end Sys2Proof.Machine
end

