-- ==== Sys2Proof/Laws/Exec.lean ====
section
/-! SUPPORT. What one operation can do, said once: exec always answers, and what the answer may be. -/

namespace Sys2Proof.Machine

/-- The rule each operation runs once its data operand has passed the check. -/
def ruleOf : Instr → Rule
  | .crcInit => ruleCrcInit
  | .crcUpdate v => ruleCrcUpdate v
  | .crcRead => ruleCrcRead
  | .crcSeq => ruleCrcSeq
  | .fieldCheck => ruleFieldCheck
  | .frame n => ruleFrame n
  | .scale k => ruleScale k
  | .desc k => ruleDesc k
  | .decode => ruleDecode

theorem exec_eq_serve (i : Instr) (s : State) : exec i s = .next (serve i (ruleOf i) s) := by
  cases i <;> rfl

/-- A malformed data operand is answered IllegalOperation, whatever the operation. -/
theorem exec_of_malformed {i : Instr} {s : State} (h : dataMalformed i s.params s.data = true) :
    exec i s = .next (s.answered s.acc 0x30 []) := by
  rw [exec_eq_serve, serve, answer_of_malformed h]
  rfl

/-- A well-formed data operand reaches the operation's rule. -/
theorem exec_of_fits {i : Instr} {s : State} (hfit : Admits s.params s.data)
    (hlen : ∀ n, fixedDataLen i = some n → s.data.length = n) :
    exec i s = .next (deliver (ruleOf i s.params s.data s.toBlock) s) := by
  rw [exec_eq_serve, serve, answer_of_fits hfit hlen]

/-- What an answer may be: `a`, which an operation `i` gives in a block whose state is `b`. -/
structure AnswerOf (i : Instr) (b : Block) (a : Answer) : Prop where
  idle : a.block.busy = false
  legal : a.response.legal = true
  accKept : a.block.acc ≠ b.acc → i = .crcInit ∨ ∃ v, i = .crcUpdate v
  errorKeeps : a.response.status ≠ 0x00 → a.block.acc = b.acc ∧ a.response.out = []

theorem legal_of_success (out : List Byte) : (Response.mk success out).legal = true := by
  simp [Response.legal, legalStatus, success]

theorem answerOf_success (i : Instr) (b : Block) (out : List Byte) : AnswerOf i b (respond success out b) :=
  ⟨rfl, legal_of_success out, fun h => absurd rfl h, fun h => absurd rfl h⟩

theorem answerOf_checksum (i : Instr) (b : Block) (g : BitVec 4) (hg : g.toNat ≤ 7) :
    AnswerOf i b (raiseError (.checksum g) b) := by
  refine ⟨rfl, ?_, fun h => absurd rfl h, fun _ => ⟨rfl, rfl⟩⟩
  have : ∀ g : BitVec 4, g.toNat ≤ 7 → (Response.mk (errorStatus (.checksum g)) []).legal = true := by decide
  exact this g hg

theorem answerOf_framing (i : Instr) (b : Block) : AnswerOf i b (raiseError .framing b) :=
  ⟨rfl, rfl, fun h => absurd rfl h, fun _ => ⟨rfl, rfl⟩⟩

theorem answerOf_illegal (i : Instr) (b : Block) : AnswerOf i b (raiseError .illegalOperation b) :=
  ⟨rfl, rfl, fun h => absurd rfl h, fun _ => ⟨rfl, rfl⟩⟩

/-- The group DECODE names is below 8. -/
theorem firstBadGroup_le {p : Params} {groups : List Group} {g : Nat} (h : firstBadGroup p groups = some g) : g ≤ 7 := by
  have hlt := (List.findIdx?_eq_some_iff_findIdx_eq.1 h).1
  have : checkedGroups p ≤ 8 := by unfold checkedGroups measureGroups fieldCount; split <;> decide
  have : (groups.take (checkedGroups p)).length ≤ checkedGroups p := List.length_take_le _ _
  omega

/-- What the rule of an operation may answer. -/
theorem answerOf_rule (i : Instr) (p : Params) (data : List Byte) (b : Block) : AnswerOf i b (ruleOf i p data b) := by
  cases i with
  | crcInit => exact ⟨rfl, legal_of_success _, fun _ => .inl rfl, fun h => absurd rfl h⟩
  | crcUpdate v => exact ⟨rfl, legal_of_success _, fun _ => .inr ⟨v, rfl⟩, fun h => absurd rfl h⟩
  | crcRead => exact answerOf_success ..
  | crcSeq => exact answerOf_success ..
  | fieldCheck =>
    simp only [ruleOf, ruleFieldCheck]
    split
    · exact answerOf_success ..
    · exact answerOf_illegal ..
  | frame n =>
    simp only [ruleOf, ruleFrame]
    split
    · exact answerOf_framing ..
    · exact answerOf_success ..
  | scale k =>
    simp only [ruleOf, ruleScale]
    split
    · exact answerOf_success ..
    · exact answerOf_illegal ..
  | desc k =>
    simp only [ruleOf, ruleDesc]
    split
    · exact answerOf_illegal ..
    · exact answerOf_success ..
  | decode =>
    simp only [ruleOf, ruleDecode]
    split
    · exact answerOf_framing ..
    · split
      · exact answerOf_framing ..
      · split
        · rename_i g hg
          have := firstBadGroup_le hg
          exact answerOf_checksum _ _ _ (by rw [BitVec.toNat_ofNat]; omega)
        · exact answerOf_success ..

/-- What an operation may answer, whatever its operand. -/
theorem answerOf_answer (i : Instr) (p : Params) (data : List Byte) (b : Block) :
    AnswerOf i b (answer i (ruleOf i) p data b) := by
  unfold answer
  split
  · exact answerOf_illegal ..
  · exact answerOf_rule ..

/-- The rule of an operation reads, of the block's state, `ACC` alone: not `BUSY` (10_state.md R24). -/
theorem rule_busy_irrelevant (i : Instr) (p : Params) (data : List Byte) (acc : Byte) (x y : Bool) :
    ruleOf i p data ⟨acc, x⟩ = ruleOf i p data ⟨acc, y⟩ := by
  cases i <;> rfl

/-- Every operation ends in exactly one answer, and what that answer may be. -/
theorem exec_answers (i : Instr) (s : State) :
    ∃ acc v out, exec i s = .next (s.answered acc v out) ∧ AnswerOf i s.toBlock ⟨⟨acc, false⟩, ⟨v, out⟩⟩ := by
  have h := answerOf_answer i s.params s.data s.toBlock
  refine ⟨_, _, _, by rw [exec_eq_serve, serve, deliver_eq_answered h.idle], ?_⟩
  rw [← h.idle]
  exact h

/-- A command word at an accepted request is answered; one that is no command, with IllegalOperation. -/
theorem runWord_answers (w : CmdWord) (s : State) :
    (∃ i acc v out, decodeWord w = .ok i ∧ runWord w s = .next (s.answered acc v out) ∧
      AnswerOf i s.toBlock ⟨⟨acc, false⟩, ⟨v, out⟩⟩) ∨
    (∃ e, decodeWord w = .error e ∧ runWord w s = .next (s.answered s.acc 0x30 [])) := by
  rcases h : decodeWord w with e | i
  · exact .inr ⟨e, rfl, by simp only [runWord, h]; rfl⟩
  · obtain ⟨acc, v, out, hx, ha⟩ := exec_answers i s
    exact .inl ⟨i, acc, v, out, rfl, by simp only [runWord, h]; exact hx, ha⟩

end Sys2Proof.Machine
end

