-- ==== Sys2Proof/Laws/Checksum.lean ====
section
/-! SUPPORT. The checksum's round is linear over exclusive-or, and so are its rounds. -/

namespace Sys2Proof.Machine

theorem crcRound_xor (x y : Byte) : crcRound (x ^^^ y) = crcRound x ^^^ crcRound y := by
  unfold crcRound poly
  simp only [BitVec.getLsbD_xor, BitVec.shiftLeft_xor_distrib]
  cases x.getLsbD 7 <;> cases y.getLsbD 7 <;> simp <;> (ext j hj; simp; try grind)

theorem crcRounds_xor (n : Nat) (x y : Byte) : crcRounds n (x ^^^ y) = crcRounds n x ^^^ crcRounds n y := by
  induction n generalizing x y with
  | zero => rfl
  | succ n ih => simp only [crcRounds, crcRound_xor, ih]

/-- One round in numbers: the shift modulo 256, then the polynomial where bit 7 was set. -/
theorem crcRound_toNat (x : Byte) :
    (crcRound x).toNat = if 128 ≤ x.toNat then (2 * x.toNat % 256) ^^^ 0x31 else 2 * x.toNat % 256 := by
  revert x
  decide

end Sys2Proof.Machine
end

