-- ==== Sys2Proof/Laws/Decode.lean ====
section
/-! SUPPORT. The fields of a command word: what they read from a word made of fields, as numbers, and that a word is its
fields. -/

namespace Sys2Proof

@[simp] theorem cmdOpc_cmdWord (opc : BitVec 4) (k : FieldIndex) (imm : Byte) : cmdOpc (cmdWord opc k imm) = opc := by
  unfold cmdOpc cmdWord
  ext j hj
  simp
  grind

@[simp] theorem cmdK_cmdWord (opc : BitVec 4) (k : FieldIndex) (imm : Byte) : cmdK (cmdWord opc k imm) = k := by
  unfold cmdK cmdWord
  ext j hj
  simp
  grind

@[simp] theorem cmdImm_cmdWord (opc : BitVec 4) (k : FieldIndex) (imm : Byte) : cmdImm (cmdWord opc k imm) = imm := by
  unfold cmdImm cmdWord
  ext j hj
  simp
  grind

/-- A word is made of its three fields (30_encoding.md R40): no bit is outside them. -/
theorem cmdWord_fields (w : CmdWord) : cmdWord (cmdOpc w) (cmdK w) (cmdImm w) = w := by
  unfold cmdWord cmdOpc cmdK cmdImm
  ext j hj
  simp
  grind

theorem append_toNat {m n : Nat} (a : BitVec m) (b : BitVec n) : (a ++ b).toNat = a.toNat * 2 ^ n + b.toNat := by
  rw [BitVec.toNat_append, Nat.shiftLeft_eq, ← Nat.shiftLeft_eq, Nat.shiftLeft_add_eq_or_of_lt b.isLt]

theorem cmdWord_toNat (opc : BitVec 4) (k : FieldIndex) (imm : Byte) :
    (cmdWord opc k imm).toNat = opc.toNat * 4096 + k.toNat * 256 + imm.toNat := by
  unfold cmdWord
  rw [append_toNat, append_toNat]
  omega

theorem cmdOpc_toNat (w : CmdWord) : (cmdOpc w).toNat = w.toNat / 4096 := by
  have := w.isLt
  simp [cmdOpc, Nat.shiftRight_eq_div_pow]
  omega

theorem cmdK_toNat (w : CmdWord) : (cmdK w).toNat = w.toNat / 256 % 16 := by
  simp [cmdK, Nat.shiftRight_eq_div_pow]

theorem cmdImm_toNat (w : CmdWord) : (cmdImm w).toNat = w.toNat % 256 := by
  simp [cmdImm]

/-- The two bytes of a word in port order make the word again (20_memory.md R33). -/
theorem wordOfBytes_bytesOfWord (w : CmdWord) (data : List Byte) :
    wordOfBytes (bytesOfWord w ++ data) = .ok (w, data) := by
  have h : (w.extractLsb' 8 8 ++ w.extractLsb' 0 8 : BitVec 16) = w := by
    ext j hj
    simp
    grind
  simp only [bytesOfWord, List.cons_append, List.nil_append, wordOfBytes]
  exact congrArg (fun v => Except.ok (v, data)) h

end Sys2Proof
end

