-- ==== Sys2Proof/Laws/Operands.lean ====
section
/-! SUPPORT. What the operand forms are as numbers and lists: the conversions of 00_scope.md R10, the groups of 41_framer.md
R63. -/

namespace Sys2Proof.Machine

theorem be16_toNat (hi lo : Byte) : (be16 hi lo).toNat = rawWord hi lo := by
  unfold be16 rawWord
  rw [append_toNat]
  rfl

@[simp] theorem hiByte_be16 (hi lo : Byte) : hiByte (be16 hi lo) = hi := by
  unfold hiByte be16
  ext j hj
  simp
  grind

@[simp] theorem loByte_be16 (hi lo : Byte) : loByte (be16 hi lo) = lo := by
  unfold loByte be16
  ext j hj
  simp
  grind

theorem sext16_eq (v : Word) : sext16 v = if 32768 ≤ v.toNat then (v.toNat : Int) - 65536 else v.toNat := by
  unfold sext16
  have := v.isLt
  rw [BitVec.getLsbD, Nat.testBit_eq_decide_div_mod_eq]
  simp
  split <;> split <;> omega

/-- `sext_16` is the two's-complement reading (00_scope.md R10). -/
theorem sext16_eq_toInt (v : Word) : sext16 v = v.toInt := by
  rw [sext16_eq, BitVec.toInt_eq_toNat_cond]
  split <;> split <;> omega

/-- Cutting into groups and writing the groups out gives the bytes back. -/
theorem flatMap_bytes_groupsOf : ∀ (data : List Byte) (n : Nat), data.length = 3 * n →
    (groupsOf data).flatMap Group.bytes = data
  | [], _, _ => rfl
  | [_], _, h => by simp at h; omega
  | [_, _], _, h => by simp at h; omega
  | v0 :: v1 :: c :: rest, n, h => by
    have ih := flatMap_bytes_groupsOf rest (n - 1) (by simp at h; omega)
    simp [groupsOf, ih, Group.bytes]

/-- The groups of `3n` bytes are `n`. -/
theorem length_groupsOf : ∀ (data : List Byte) (n : Nat), data.length = 3 * n → (groupsOf data).length = n
  | [], n, h => by simp at h; simp [groupsOf]; omega
  | [_], _, h => by simp at h; omega
  | [_, _], _, h => by simp at h; omega
  | v0 :: v1 :: c :: rest, n, h => by
    have ih := length_groupsOf rest (n - 1) (by simp at h; omega)
    simp [groupsOf, ih]
    simp at h
    omega

/-- Group `g` is made of the bytes `3g`, `3g+1`, `3g+2`. -/
theorem groupsOf_getElem? : ∀ (data : List Byte) (g : Nat) (v0 v1 c : Byte), data[3 * g]? = some v0 →
    data[3 * g + 1]? = some v1 → data[3 * g + 2]? = some c → (groupsOf data)[g]? = some ⟨be16 v0 v1, c⟩
  | [], _, _, _, _, h, _, _ => by simp at h
  | [_], 0, _, _, _, _, h, _ => by simp at h
  | [_], _ + 1, _, _, _, h, _, _ => by simp at h
  | [_, _], 0, _, _, _, _, _, h => by simp at h
  | [_, _], g + 1, _, _, _, h, _, _ => by simp [Nat.mul_add] at h
  | _ :: _ :: _ :: _, 0, _, _, _, h0, h1, h2 => by
    simp at h0 h1 h2
    simp [groupsOf, h0, h1, h2]
  | x :: y :: z :: rest, g + 1, v0, v1, c, h0, h1, h2 => by
    simp [Nat.mul_add] at h0 h1 h2
    simpa [groupsOf] using groupsOf_getElem? rest g v0 v1 c h0 h1 h2

end Sys2Proof.Machine
end

