-- ==== Sys2Proof/Laws/PerInstr.lean ====
section
/-! SUPPORT. Statements made per instruction. -/

namespace Sys2Proof.Laws.MatchMask

/-- The mask column of 30_encoding.md R42. -/
def maskOf : Instr → CmdWord
  | .crcInit => 0xFFFF
  | .crcUpdate _ => 0xFF00
  | .crcRead => 0xFFFF
  | .crcSeq => 0xFFFF
  | .fieldCheck => 0xFFFF
  | .frame _ => 0xFF00
  | .scale _ => 0xF0FF
  | .desc _ => 0xF0FF
  | .decode => 0xFFFF

/-- The match column of 30_encoding.md R42. -/
def matchOf : Instr → CmdWord
  | .crcInit => 0x0000
  | .crcUpdate _ => 0x1000
  | .crcRead => 0x2000
  | .crcSeq => 0x3000
  | .fieldCheck => 0x4000
  | .frame _ => 0x5000
  | .scale _ => 0x6000
  | .desc _ => 0x7000
  | .decode => 0x8000

/-- The instruction's word has its row's match under its row's mask. -/
def Statement (i : Instr) : Prop := encode i &&& maskOf i = matchOf i

theorem crcInit : Statement .crcInit := by unfold Statement; decide
theorem crcUpdate (b : Byte) : Statement (.crcUpdate b) := by unfold Statement; revert b; decide
theorem crcRead : Statement .crcRead := by unfold Statement; decide
theorem crcSeq : Statement .crcSeq := by unfold Statement; decide
theorem fieldCheck : Statement .fieldCheck := by unfold Statement; decide
theorem frame (n : Byte) : Statement (.frame n) := by unfold Statement; revert n; decide
theorem scale (k : FieldIndex) : Statement (.scale k) := by unfold Statement; revert k; decide
theorem desc (k : FieldIndex) : Statement (.desc k) := by unfold Statement; revert k; decide
theorem decode : Statement .decode := by unfold Statement; decide

end Sys2Proof.Laws.MatchMask
end

