-- ==== Sys2Proof/Laws/Scaler.lean ====
section
/-! SUPPORT. What the descriptor table holds and what a scaled value's encoding is in numbers (10_state.md R20, 42_scaler.md
R68). -/

namespace Sys2Proof.Machine

/-- A descriptor read from the table is that of a field 0..6, with the field's divisor and signedness. -/
theorem descOf_some {k : FieldIndex} {d : Descriptor} (h : descOf k = some d) :
    k.toNat ≤ 6 ∧ d.den.toNat = fieldDen k.toNat ∧ d.signed = decide (4 ≤ k.toNat) := by
  have key : ∀ k : FieldIndex, ∀ d ∈ descOf k,
      k.toNat ≤ 6 ∧ d.den.toNat = fieldDen k.toNat ∧ d.signed = decide (4 ≤ k.toNat) := by decide
  exact key k d h

theorem descOf_exists {k : FieldIndex} (h : k.toNat ≤ 6) : ∃ d, descOf k = some d := by
  have key : ∀ k : FieldIndex, k.toNat ≤ 6 → (descOf k).isSome = true := by decide
  exact Option.isSome_iff_exists.1 (key k h)

theorem descOf_none {k : FieldIndex} (h : 7 ≤ k.toNat) : descOf k = none := by
  cases hd : descOf k with
  | none => rfl
  | some d => have := (descOf_some hd).1; omega

/-- The numerator of a scaled value, by field. -/
theorem scaleBy_num {k : FieldIndex} {d : Descriptor} (h : descOf k = some d) (v : Word) :
    (scaleBy d v).num = fieldNum k.toNat v.toNat := by
  simp only [scaleBy, sext16_eq, zext16, (descOf_some h).2.2]
  unfold fieldNum
  split <;> split <;> simp_all <;> omega

/-- The five bytes of an encoded value, as numbers. -/
theorem encRat_toNat (x : Scaled) : (encRat x).map BitVec.toNat = encRatNat x.num x.den.toNat := by
  have hden := x.den.isLt
  have hlt := Int.emod_lt_of_pos x.num (show (0 : Int) < 4294967296 by decide)
  have hnn := Int.emod_nonneg x.num (show (4294967296 : Int) ≠ 0 by decide)
  simp [encRat, bytes32, encRatNat, Nat.shiftRight_eq_div_pow]
  exact Nat.succ_le_of_lt (by omega)

end Sys2Proof.Machine
end

