-- ==== Sys2Proof/Tests/Slice0.lean ====
section
/-! SUPPORT. Tests: each expected value is from spec/95_test_vectors.md or the rule named, none from the model. Then the
witnesses: for every obligation with hypotheses, a state and operands that meet them. -/

open Sys2Proof Sys2Proof.Machine

set_option maxRecDepth 20000

namespace Sys2Proof.Tests

/-! ### Helpers -/

/-- A state with a request in service. -/
def serving (acc : Byte) (data : List Byte) (p : Params := ⟨false, none⟩) : State :=
  { acc := acc, busy := true, params := p, data := data, inputs := [], responses := [] }

/-- An idle state with these events at the port. -/
def idle (acc : Byte) (inputs : List PortEvent) : State :=
  { acc := acc, busy := false, params := ⟨false, none⟩, data := [], inputs := inputs, responses := [] }

/-- What an operation left: ACC, then the last response. -/
def seen (o : Host.Outcome State Fault Refusal) : Option (Byte × Response) :=
  match o with
  | .next t => t.responses.getLast?.map (fun r => (t.acc, r))
  | .fault _ => none
  | .refused _ => none

/-- Buffer B of section 3.6. -/
def bufferB : List Byte :=
  [0x00, 0x0C, 0xFC, 0x00, 0x19, 0x4A, 0x00, 0x1E, 0xDD, 0x00, 0x28, 0xBE] ++
  [0x11, 0x94, 0xE6, 0xFF, 0x38, 0x7C, 0x03, 0xE8, 0xD4, 0x00, 0x64, 0xFE]

/-- Buffer G7 of section 3.6: B with byte 23 changed to 00. -/
def bufferG7 : List Byte := bufferB.set 23 0x00

/-- The 35 bytes of DEC-2. -/
def readingB : List Byte :=
  [0x00, 0x00, 0x00, 0x0C, 0x0A, 0x00, 0x00, 0x00, 0x19, 0x0A, 0x00, 0x00, 0x00, 0x1E, 0x0A, 0x00, 0x00, 0x00, 0x28, 0x0A] ++
  [0x00, 0x00, 0x11, 0x94, 0x64, 0xFF, 0xFF, 0xFF, 0x38, 0xC8, 0x00, 0x00, 0x03, 0xE8, 0x0A]

/-! ### WellFormed: each check refuses an ill-formed term (R42, R43) -/

theorem test_scale_of_field_7_is_ill_formed : (Instr.scale 7).wellFormed = false := by decide
theorem test_desc_of_field_15_is_ill_formed : (Instr.desc 15).wellFormed = false := by decide

/-! ### Decoding: words written out from R40's fields, one per constructor (R42), and the reserved words of section 3.7 -/

theorem test_decode_crcInit : decodeTableWord 16 0b0000000000000000 = some .crcInit := by decide
theorem test_decode_crcUpdate : decodeTableWord 16 0b0001000010111110 = some (.crcUpdate 0xBE) := by decide
theorem test_decode_crcRead : decodeTableWord 16 0b0010000000000000 = some .crcRead := by decide
theorem test_decode_crcSeq : decodeTableWord 16 0b0011000000000000 = some .crcSeq := by decide
theorem test_decode_fieldCheck : decodeTableWord 16 0b0100000000000000 = some .fieldCheck := by decide
theorem test_decode_frame : decodeTableWord 16 0b0101000000001000 = some (.frame 8) := by decide
theorem test_decode_scale : decodeTableWord 16 0b0110010100000000 = some (.scale 5) := by decide
theorem test_decode_desc : decodeTableWord 16 0b0111011000000000 = some (.desc 6) := by decide
theorem test_decode_decode : decodeTableWord 16 0b1000000000000000 = some .decode := by decide
theorem test_reserved_words_are_refused_by_name :
    [0x9000, 0xFFFF, 0x0800, 0x3001, 0x7700, 0x7F00, 0x7001].map (fun w => decodeWord (BitVec.ofNat 16 w)) =
      [.error .reservedOpcode, .error .reservedOpcode, .error .fieldMustBeZero, .error .fieldMustBeZero,
        .error .noSuchField, .error .noSuchField, .error .fieldMustBeZero] := by decide
theorem test_word_goes_high_byte_first :
    decodeBytes [0x10, 0xBE, 0x55] = .ok (.crcUpdate 0xBE, [0x55]) ∧ decodeBytes [0x10] = .error .truncated := by decide

/-! ### Operations: at most two each -/

/-- ST-2. -/
theorem test_crcInit : seen (exec .crcInit (serving 0x92 [])) = some (0xFF, ⟨0x00, []⟩) := by decide
/-- ST-17. -/
theorem test_crcInit_with_data : seen (exec .crcInit (serving 0xFF [0x00])) = some (0xFF, ⟨0x30, []⟩) := by decide
/-- ST-4. -/
theorem test_crcUpdate : seen (exec (.crcUpdate 0xEF) (serving 0x0C [])) = some (0x92, ⟨0x00, []⟩) := by decide
/-- ST-7. -/
theorem test_crcUpdate_low_bit : seen (exec (.crcUpdate 0x01) (serving 0x00 [])) = some (0x31, ⟨0x00, []⟩) := by decide
/-- ST-10. -/
theorem test_crcRead : seen (exec .crcRead (serving 0x92 [])) = some (0x92, ⟨0x00, [0x92]⟩) := by decide
/-- SEQ-7: the check value over "123456789". -/
theorem test_crcSeq : seen (exec .crcSeq (serving 0x5A [0x31, 0x32, 0x33, 0x34, 0x35, 0x36, 0x37, 0x38, 0x39])) =
    some (0x5A, ⟨0x00, [0xF7]⟩) := by decide
/-- SEQ-9 and SEQ-10. -/
theorem test_crcSeq_max_data :
    seen (exec .crcSeq (serving 0x5A [0x01, 0x02, 0x03] ⟨false, some 2⟩)) = some (0x5A, ⟨0x30, []⟩) ∧
    seen (exec .crcSeq (serving 0x5A [0x01, 0x02] ⟨false, some 2⟩)) = some (0x5A, ⟨0x00, [0x17]⟩) := by decide
/-- FC-5. -/
theorem test_fieldCheck_match : seen (exec .fieldCheck (serving 0x5A [0xFF, 0x38, 0x7C])) =
    some (0x5A, ⟨0x00, [0x01, 0x7C]⟩) := by decide
/-- FC-6. -/
theorem test_fieldCheck_mismatch : seen (exec .fieldCheck (serving 0x5A [0xFF, 0x39, 0x7C])) =
    some (0x5A, ⟨0x00, [0x00, 0x4D]⟩) := by decide
/-- FR-3: a wrong checksum is framed like any other. -/
theorem test_frame : seen (exec (.frame 1) (serving 0xFF [0x00, 0x00, 0x80])) =
    some (0xFF, ⟨0x00, [0x00, 0x00, 0x80]⟩) := by decide
/-- FR-5 and FR-6. -/
theorem test_frame_wrong_length :
    seen (exec (.frame 2) (serving 0xFF [0x00, 0x00, 0x81])) = some (0xFF, ⟨0x20, []⟩) ∧
    seen (exec (.frame 0) (serving 0xFF [0x00, 0x00, 0x81])) = some (0xFF, ⟨0x20, []⟩) := by decide
/-- SCALE 5 FF 38, -200/200. -/
theorem test_scale_signed : seen (exec (.scale 5) (serving 0xFF [0xFF, 0x38])) =
    some (0xFF, ⟨0x00, [0xFF, 0xFF, 0xFF, 0x38, 0xC8]⟩) := by decide
/-- SCALE 0 80 00 is unsigned, SCALE 7 has no field. -/
theorem test_scale_unsigned_and_no_field :
    seen (exec (.scale 0) (serving 0xFF [0x80, 0x00])) = some (0xFF, ⟨0x00, [0x00, 0x00, 0x80, 0x00, 0x0A]⟩) ∧
    seen (exec (.scale 7) (serving 0xFF [0x00, 0x00])) = some (0xFF, ⟨0x30, []⟩) := by decide
/-- Section 3.5, DESC for k = 0, 4, 5, 6. -/
theorem test_desc : [0, 4, 5, 6].map (fun k => seen (exec (.desc k) (serving 0xFF []))) =
    [some (0xFF, ⟨0x00, [0x00, 0x0A, 0x00]⟩), some (0xFF, ⟨0x00, [0x01, 0x64, 0x01]⟩),
      some (0xFF, ⟨0x00, [0x01, 0xC8, 0x02]⟩), some (0xFF, ⟨0x00, [0x01, 0x0A, 0x03]⟩)] := by decide
/-- DEC-2. -/
theorem test_decode_B : seen (exec .decode (serving 0x0C bufferB)) = some (0x0C, ⟨0x00, readingB⟩) := by decide
/-- DEC-6 (lowest failing group), DEC-7 and DEC-8 (the trailing group), DEC-10. -/
theorem test_decode_errors :
    seen (exec .decode (serving 0xFF ((bufferB.set 8 0x00).set 17 0x00))) = some (0xFF, ⟨0x12, []⟩) ∧
    seen (exec .decode (serving 0xFF bufferG7)) = some (0xFF, ⟨0x00, readingB⟩) ∧
    seen (exec .decode (serving 0xFF bufferG7 ⟨true, none⟩)) = some (0xFF, ⟨0x17, []⟩) ∧
    seen (exec .decode (serving 0xFF (bufferB.take 21))) = some (0xFF, ⟨0x20, []⟩) := by decide

/-! ### The step and the host's interface -/

/-- Section 3.7: a reserved word. -/
theorem test_step_reserved_word : seen (step (idle 0x5A [.request ⟨0x9000, []⟩])) = some (0x5A, ⟨0x30, []⟩) := by decide
/-- Every row of the opcode table, placed by withFetchWord after reset, is answered by the next step; DECODE's zero bytes have
a wrong checksum in group 0 (R76). -/
theorem test_table_rows_run_after_reset :
    [0x0000, 0x10BE, 0x2000, 0x3000, 0x4000, 0x5001, 0x6500, 0x7500, 0x8000].map
      (fun w => (seen (step (State.reset.withFetchWord 16 w))).map (fun x => x.2.status)) =
      [some 0x00, some 0x00, some 0x00, some 0x00, some 0x00, some 0x00, some 0x00, some 0x00, some 0x10] := by
  decide

/-! ### The assembler (R50, R51; the example lines of R50 and section 3) -/

/-- `SCALE 5 {FF 38}` and its response. -/
theorem test_assemble_scale :
    assembleLine (['S', 'C', 'A', 'L', 'E', ' ', '5', ' ', openBrace, 'F', 'F', ' ', '3', '8', closeBrace]) =
      some [⟨0x6500, [0xFF, 0x38]⟩] ∧
    responseChars ⟨0x00, [0x92]⟩ = ['-', '>', ' ', 's', '0', '0', ' ', openBrace, '9', '2', closeBrace] := by decide
/-- `CRC_BYTES 0xBE 0xEF` is program P1. -/
theorem test_assemble_crcBytes :
    assembleLine (['C', 'R', 'C', '_', 'B', 'Y', 'T', 'E', 'S', ' ', '0', 'x', 'B', 'E', ' ', '2', '3', '9']) =
      some [⟨0x0000, []⟩, ⟨0x10BE, []⟩, ⟨0x10EF, []⟩, ⟨0x2000, []⟩] := by decide

/-! ### Witnesses -/

theorem admits_unbounded (t : Bool) (data : List Byte) : Admits ⟨t, none⟩ data := fun _ h => by cases h
theorem not_admits_bounded : ¬ Admits ⟨false, some 2⟩ [0x01, 0x02, 0x03] := fun h => by
  have := h 2 rfl
  simp at this

/-- A group matches where its bytes and checksum are these. -/
theorem groupMatches_of {data : List Byte} {g : Nat} (v0 v1 c : Byte)
    (h : data[3 * g]? = some v0 ∧ data[3 * g + 1]? = some v1 ∧ data[3 * g + 2]? = some c ∧ crc8 [v0, v1] = c) :
    GroupMatches data g := ⟨v0, v1, c, h⟩

/-- A group fails where its bytes are these and the checksum is not. -/
theorem groupFails_of {data : List Byte} {g : Nat} (v0 v1 c : Byte)
    (h : data[3 * g]? = some v0 ∧ data[3 * g + 1]? = some v1 ∧ data[3 * g + 2]? = some c ∧ crc8 [v0, v1] ≠ c) :
    ¬ GroupMatches data g := by
  rintro ⟨a0, a1, a2, h0, h1, h2, hc⟩
  rw [h.1] at h0
  rw [h.2.1] at h1
  rw [h.2.2.1] at h2
  cases h0
  cases h1
  cases h2
  exact h.2.2.2 hc

theorem groups_of_B_match : ∀ g, g ≤ 7 → GroupMatches bufferB g := by
  intro g hg
  have h : g = 0 ∨ g = 1 ∨ g = 2 ∨ g = 3 ∨ g = 4 ∨ g = 5 ∨ g = 6 ∨ g = 7 := by omega
  rcases h with rfl | rfl | rfl | rfl | rfl | rfl | rfl | rfl
  · exact groupMatches_of 0x00 0x0C 0xFC (by decide)
  · exact groupMatches_of 0x00 0x19 0x4A (by decide)
  · exact groupMatches_of 0x00 0x1E 0xDD (by decide)
  · exact groupMatches_of 0x00 0x28 0xBE (by decide)
  · exact groupMatches_of 0x11 0x94 0xE6 (by decide)
  · exact groupMatches_of 0xFF 0x38 0x7C (by decide)
  · exact groupMatches_of 0x03 0xE8 0xD4 (by decide)
  · exact groupMatches_of 0x00 0x64 0xFE (by decide)

theorem test_witness_DecodeOfEncode : (Instr.scale 6).wellFormed = true ∧ (Instr.desc 0).wellFormed = true := by decide
theorem test_witness_BytePortRoundTrip : (Instr.crcUpdate 0xFF).wellFormed = true := by decide
theorem test_witness_StepRunsDecodedInstruction :
    (idle 0x00 [.request ⟨0x6600, [0, 1]⟩]).inputs = .request ⟨0x6600, [0, 1]⟩ :: [] ∧
    (idle 0x00 [.request ⟨0x6600, [0, 1]⟩]).busy = false ∧ decodeWord 0x6600 = .ok (.scale 6) := by decide
theorem test_witness_FetchWordIsRunNext : decodeTableWord 16 0x50FF = some (.frame 0xFF) := by decide
theorem test_witness_ReservedOpcodeIsIllegal :
    (idle 0x5A [.request ⟨0x9000, [1]⟩]).inputs = .request ⟨0x9000, [1]⟩ :: [] ∧ (idle 0x5A [.request ⟨0x9000, [1]⟩]).busy = false ∧
    0x9000 ≤ (0x9000 : CmdWord).toNat := by decide
/-- One word and data length for each of the seven clauses: 0x8100, 0x8001, 0x6700, 0x7500 with a byte, 0x4000 with 2, 0x6600
with 3, and 0x3000 with 3 where P_MAX_DATA is 2. -/
theorem test_witness_MalformedRequestIsIllegal :
    (0x8100 / 4096 ≤ 8 ∧ 0x8100 / 4096 ≠ 6 ∧ 0x8100 / 4096 ≠ 7 ∧ 0x8100 / 256 % 16 ≠ 0) ∧
    (0x8001 / 4096 ≤ 8 ∧ 0x8001 / 4096 ≠ 1 ∧ 0x8001 / 4096 ≠ 5 ∧ 0x8001 % 256 ≠ 0) ∧
    (0x6700 / 4096 = 6 ∧ 7 ≤ 0x6700 / 256 % 16) ∧
    (0x7500 / 4096 = 7 ∧ ([0x00] : List Byte).length ≠ 0) ∧
    (0x4000 / 4096 = 4 ∧ ([0x00, 0x00] : List Byte).length ≠ 3) ∧
    (0x6600 / 4096 = 6 ∧ ([0x00, 0x00, 0x00] : List Byte).length ≠ 2) ∧
    (0x3000 / 4096 ≤ 8 ∧ ¬ Admits ⟨false, some 2⟩ [0x01, 0x02, 0x03]) :=
  ⟨by decide, by decide, by decide, by decide, by decide, by decide, by decide, not_admits_bounded⟩
theorem test_witness_BusyPortTakesNoRequest :
    ({ idle 0x00 [.request ⟨0x0000, []⟩] with busy := true } : State).inputs = .request ⟨0x0000, []⟩ :: [] ∧
    ({ idle 0x00 [.request ⟨0x0000, []⟩] with busy := true } : State).busy = true := by decide
/-- A reset with a request in service: BUSY 1 and an operand held. -/
theorem test_witness_ResetEventResetsTheBlock :
    ({ serving 0x5A [0x01] with inputs := [.reset] } : State).inputs = .reset :: [] ∧
    ({ serving 0x5A [0x01] with inputs := [.reset] } : State).busy = true := by decide
theorem test_witness_FirstRequestAfterReset :
    (idle 0x5A [.reset, .request ⟨0x2000, []⟩]).inputs = .reset :: .request ⟨0x2000, []⟩ :: [] ∧
    (idle 0x5A [.reset, .request ⟨0x10BE, []⟩]).inputs = .reset :: .request ⟨encode (.crcUpdate 0xBE), []⟩ :: [] := by decide
theorem test_witness_StepKeepsInv :
    (idle 0x5A [.reset]).Inv ∧ ∃ t, step (idle 0x5A [.reset]) = .next t :=
  ⟨⟨rfl, rfl, fun r h => by simp [idle] at h⟩, _, rfl⟩
theorem test_witness_EveryRequestGetsOneLegalResponse :
    (idle 0x5A [.request ⟨0xFFFF, [1, 2]⟩]).inputs = .request ⟨0xFFFF, [1, 2]⟩ :: [] ∧
    (idle 0x5A [.request ⟨0xFFFF, [1, 2]⟩]).busy = false := by decide
theorem test_witness_OnlyInitUpdateResetWriteAcc :
    ∃ t, step (idle 0x5A [.reset]) = .next t ∧ t.acc ≠ (idle 0x5A [.reset]).acc := ⟨_, rfl, by decide⟩
theorem test_witness_OnlyUpdateReadReadAcc : (∀ b, Instr.decode ≠ .crcUpdate b) ∧ Instr.decode ≠ .crcRead :=
  ⟨fun _ h => Instr.noConfusion h, fun h => Instr.noConfusion h⟩
theorem test_witness_ErrorsChangeNoState :
    ∃ t, step (idle 0x5A [.request ⟨0x9000, []⟩]) = .next t ∧
      t.responses = (idle 0x5A [.request ⟨0x9000, []⟩]).responses ++ [⟨0x30, []⟩] ∧ (0x30 : Byte) ≠ 0x00 :=
  ⟨_, rfl, by decide, by decide⟩
theorem test_witness_AccPersistsThroughPureRequests :
    (∀ r ∈ [(⟨0x3000, [0, 0]⟩ : Request), ⟨0x10BE, [1]⟩], writesAcc r.word = false ∨ r.data ≠ []) ∧
    (idle 0x0C [.request ⟨0x3000, [0, 0]⟩, .request ⟨0x10BE, [1]⟩]).inputs =
      [(⟨0x3000, [0, 0]⟩ : Request), ⟨0x10BE, [1]⟩].map .request ++ [] := by decide
theorem test_witness_DecodeReportsTheFirstError :
    ¬ Admits (serving 0 [1, 2, 3] ⟨false, some 2⟩).params (serving 0 [1, 2, 3] ⟨false, some 2⟩).data ∧
    (Admits (serving 0 [1, 2, 3]).params (serving 0 [1, 2, 3]).data ∧ (serving 0 [1, 2, 3]).data.length ≠ 24) ∧
    (Admits (serving 0 bufferG7 ⟨true, none⟩).params bufferG7 ∧ bufferG7.length = 24 ∧
      7 ≤ lastChecked (serving 0 bufferG7 ⟨true, none⟩).params ∧ ¬ GroupMatches bufferG7 7) :=
  ⟨not_admits_bounded, ⟨admits_unbounded _ _, by decide⟩, admits_unbounded _ _, by decide, by decide,
    groupFails_of 0x00 0x64 0x00 (by decide)⟩
theorem test_witness_CrcInitResult : (serving 0x92 []).data = [] ∧ (serving 0x92 [0]).data ≠ [] := by decide
theorem test_witness_CrcUpdateResult : (serving 0xBE []).data = [] ∧ (serving 0xBE [1]).data ≠ [] := by decide
theorem test_witness_CrcReadResult : (serving 0x92 []).data = [] ∧ (serving 0x92 [0]).data ≠ [] := by decide
theorem test_witness_CrcSeqResult : Admits (serving 0 []).params (serving 0 []).data ∧
    ¬ Admits (serving 0 [1, 2, 3] ⟨false, some 2⟩).params (serving 0 [1, 2, 3] ⟨false, some 2⟩).data :=
  ⟨admits_nil _, not_admits_bounded⟩
theorem test_witness_FieldCheckResult :
    (serving 0 [0x00, 0x00, 0x81]).data = [0x00, 0x00, 0x81] ∧ crc8 [0x00, 0x00] = 0x81 ∧ crc8 [0x00, 0x00] ≠ 0x80 ∧
    Admits (serving 0 [0x00, 0x00, 0x81]).params (serving 0 [0x00, 0x00, 0x81]).data ∧ (serving 0 [0x00, 0x00]).data.length ≠ 3 :=
  ⟨by decide, by decide, by decide, admits_unbounded _ _, by decide⟩
theorem test_witness_OversizeDataIsIllegalEverywhere :
    ¬ Admits (serving 0 [1, 2, 3] ⟨false, some 2⟩).params (serving 0 [1, 2, 3] ⟨false, some 2⟩).data := not_admits_bounded
theorem test_witness_FrameResult :
    (serving 0 []).data.length = 3 * (0 : Byte).toNat ∧ (serving 0 bufferB).data.length = 3 * (8 : Byte).toNat ∧
    (serving 0 bufferB).data.length ≠ 3 * (7 : Byte).toNat ∧ Admits (serving 0 bufferB).params (serving 0 bufferB).data ∧
    ¬ Admits (serving 0 [1, 2, 3] ⟨false, some 2⟩).params (serving 0 [1, 2, 3] ⟨false, some 2⟩).data :=
  ⟨by decide, by decide, by decide, admits_unbounded _ _, not_admits_bounded⟩
theorem test_witness_FramingConditionIsExact :
    Admits (serving 0 bufferB).params (serving 0 bufferB).data ∧ (serving 0 bufferB).data.length ≠ 3 * (7 : Byte).toNat :=
  ⟨admits_unbounded _ _, by decide⟩
theorem test_witness_FrameGroupsByIndex : bufferB.length = 3 * 8 ∧ bufferB.length ≠ 3 * 7 ∧ (7 : Nat) < 8 := by decide
theorem test_witness_DescResult :
    (serving 0 []).data = [] ∧ (0 : FieldIndex).toNat ≤ 6 ∧ (6 : FieldIndex).toNat ≤ 6 ∧ 7 ≤ (7 : FieldIndex).toNat ∧
    (serving 0 [0]).data ≠ [] := by decide
theorem test_witness_ScaleResult :
    (serving 0 [0x80, 0x00]).data = [0x80, 0x00] ∧ Admits (serving 0 [0x80, 0x00]).params (serving 0 [0x80, 0x00]).data ∧
    (6 : FieldIndex).toNat ≤ 6 ∧ 7 ≤ (7 : FieldIndex).toNat ∧ (serving 0 [0]).data.length ≠ 2 :=
  ⟨by decide, admits_unbounded _ _, by decide, by decide, by decide⟩
theorem test_witness_PhysicalValues : (0 : FieldIndex).toNat ≤ 3 ∧ (3 : FieldIndex).toNat ≤ 3 := by decide
theorem test_witness_NegativeExactlyBySignBit :
    descOf 3 = some ⟨false, 10, 0⟩ ∧ descOf 4 = some ⟨true, 100, 1⟩ := by decide
theorem test_witness_ScalingIsStrictlyMonotone :
    (descOf 3 = some ⟨false, 10, 0⟩ ∧ (3 : FieldIndex).toNat ≤ 3) ∧
    (descOf 4 = some ⟨true, 100, 1⟩ ∧ 4 ≤ (4 : FieldIndex).toNat) := by decide
theorem test_witness_EncRatDecodesUniquely :
    descOf 5 = some ⟨true, 200, 2⟩ ∧ (-32768 : Int) ≤ (⟨-32768, 200⟩ : Scaled).num ∧ (⟨65535, 10⟩ : Scaled).num ≤ 65535 ∧
    encRat ⟨-32768, 200⟩ = encRat ⟨-32768, 200⟩ := by decide
theorem test_witness_DecodeResult :
    (serving 0 bufferB ⟨true, none⟩).data.length = 24 ∧
    Admits (serving 0 bufferB ⟨true, none⟩).params (serving 0 bufferB ⟨true, none⟩).data ∧
    (∀ g, g ≤ lastChecked (serving 0 bufferB ⟨true, none⟩).params → GroupMatches (serving 0 bufferB ⟨true, none⟩).data g) :=
  ⟨by decide, admits_unbounded _ _, groups_of_B_match⟩
/-- Group 7 is the failing one, and it is checked. -/
theorem test_witness_DecodeChecksumError :
    (serving 0 bufferG7 ⟨true, none⟩).data.length = 24 ∧
    Admits (serving 0 bufferG7 ⟨true, none⟩).params (serving 0 bufferG7 ⟨true, none⟩).data ∧
    7 ≤ lastChecked (serving 0 bufferG7 ⟨true, none⟩).params ∧ ¬ GroupMatches (serving 0 bufferG7 ⟨true, none⟩).data 7 ∧
    (∀ j, j < 7 → GroupMatches (serving 0 bufferG7 ⟨true, none⟩).data j) := by
  refine ⟨by decide, admits_unbounded _ _, by decide, groupFails_of 0x00 0x64 0x00 (by decide), fun j hj => ?_⟩
  have h : j = 0 ∨ j = 1 ∨ j = 2 ∨ j = 3 ∨ j = 4 ∨ j = 5 ∨ j = 6 := by omega
  rcases h with rfl | rfl | rfl | rfl | rfl | rfl | rfl
  · exact groupMatches_of 0x00 0x0C 0xFC (by decide)
  · exact groupMatches_of 0x00 0x19 0x4A (by decide)
  · exact groupMatches_of 0x00 0x1E 0xDD (by decide)
  · exact groupMatches_of 0x00 0x28 0xBE (by decide)
  · exact groupMatches_of 0x11 0x94 0xE6 (by decide)
  · exact groupMatches_of 0xFF 0x38 0x7C (by decide)
  · exact groupMatches_of 0x03 0xE8 0xD4 (by decide)
theorem test_witness_DecodeWrongLength :
    (serving 0 (bufferB.take 21)).data.length ≠ 24 ∧
    Admits (serving 0 (bufferB.take 21)).params (serving 0 (bufferB.take 21)).data := ⟨by decide, admits_unbounded _ _⟩
theorem test_witness_TrailingGroupIgnoredWhenUnchecked :
    (idle 0 []).params.checkTrailing = false ∧ (bufferB.take 21).length = 21 ∧ (bufferB.drop 21).length = 3 ∧
    ([0, 0, 0] : List Byte).length = 3 := by decide
theorem test_witness_DecodeIsPure :
    (serving 0x00 bufferB).data = (serving 0x5A bufferB).data ∧ (serving 0x00 bufferB).params = (serving 0x5A bufferB).params := by
  decide
theorem test_witness_DecodeAgreesWithItsParts :
    bufferB.length = 24 ∧ Admits (idle 0 []).params bufferB ∧ ∃ out, responseOf (exec .decode (serving 0 bufferB)) = some ⟨0x00, out⟩ :=
  ⟨by decide, admits_unbounded _ _, readingB, by decide⟩
theorem test_witness_ChecksumsAreUniform : crc8 [0x00, 0x00] = 0x81 := by decide
/-- Bits 0 and 23 of the group `00 00 81` flipped: `80 00 80`. -/
theorem test_witness_FieldCheckDetectsTwoBitErrors :
    crc8 [0x00, 0x00] = 0x81 ∧
    (0x80#8 ++ 0x00#8 ++ 0x01#8 : BitVec 24) = (1#24 <<< (0 : Fin 24).val) ||| (1#24 <<< (23 : Fin 24).val) ∧
    (serving 0 [0x80, 0x00, 0x80]).data = [(0x00 : Byte) ^^^ 0x80, (0x00 : Byte) ^^^ 0x00, (0x81 : Byte) ^^^ 0x01] ∧
    Admits (serving 0 [0x80, 0x00, 0x80]).params (serving 0 [0x80, 0x00, 0x80]).data :=
  ⟨by decide, by decide, by decide, admits_unbounded _ _⟩
theorem test_witness_StreamingEqualsPure :
    (idle 0x5A ((crcBytes [0xBE, 0xEF]).map .request)).inputs = (crcBytes [0xBE, 0xEF]).map .request ++ [] ∧
    (idle 0x5A ((crcBytes [0xBE, 0xEF]).map .request)).busy = false := by decide
/-- Program P6; the checksums of `xs` and `ys` differ. -/
theorem test_witness_InitInsideStreamDiscardsItsBytes :
    (idle 0xFF ([⟨0x0000, []⟩, ⟨0x10BE, []⟩, ⟨0x0000, []⟩, ⟨0x1000, []⟩, ⟨0x10EF, []⟩, ⟨0x2000, []⟩].map .request)).inputs =
      ((requestOf .crcInit [] :: [0xBE].map (fun b => requestOf (.crcUpdate b) [])) ++
        crcBytes ([0x00] ++ [0xEF])).map .request ++ [] ∧ crc8 [0x00, 0xEF] = 0x6E ∧ crc8 [0xBE, 0xEF] = 0x92 ∧
    crc8 [0xBE] ≠ crc8 [0x00] := by decide
theorem test_witness_CheckGroupExpansion :
    bufferB[3 * 7]? = some 0x00 ∧ bufferB[3 * 7 + 1]? = some 0x64 ∧ bufferB[3 * 7 + 2]? = some 0xFE := by decide
/-- Two states that agree in ACC, parameters and operand, not in BUSY or in the events at the port. -/
theorem test_witness_AnswerReadsAccAndArgumentsOnly :
    (serving 0x5A bufferB).acc = ({ idle 0x5A [.reset] with data := bufferB } : State).acc ∧
    (serving 0x5A bufferB).params = ({ idle 0x5A [.reset] with data := bufferB } : State).params ∧
    (serving 0x5A bufferB).data = ({ idle 0x5A [.reset] with data := bufferB } : State).data := by decide
/-- Two states that agree in ACC, BUSY, parameters and events, not in the responses returned before; the first runs a step. -/
theorem test_witness_AccAndBusyAreTheCompleteState :
    (idle 0x5A [.reset]).toBlock = ({ idle 0x5A [.reset] with responses := [⟨0x30, []⟩] } : State).toBlock ∧
    (idle 0x5A [.reset]).params = ({ idle 0x5A [.reset] with responses := [⟨0x30, []⟩] } : State).params ∧
    (idle 0x5A [.reset]).inputs = ({ idle 0x5A [.reset] with responses := [⟨0x30, []⟩] } : State).inputs ∧
    ∃ t, RunsTo 1 (idle 0x5A [.reset]) t := ⟨rfl, rfl, rfl, _, rfl⟩

end Sys2Proof.Tests
end

namespace Sys2Proof

/-! ### Which words decode to an operation that writes `ACC` -/

theorem whenZero_eq_ok_iff {zero : Bool} {i j : Instr} : whenZero zero i = .ok j ↔ j = i ∧ zero = true := by
  cases zero <;> simp [whenZero, eq_comm]

theorem withField_eq_ok_iff {w : CmdWord} {mk : FieldIndex → Instr} {i : Instr} :
    withField w mk = .ok i ↔ i = mk (cmdK w) ∧ cmdImm w = 0 ∧ (cmdK w).toNat ≤ 6 := by
  unfold withField
  split
  · next himm => exact iff_of_false nofun fun ⟨_, h, _⟩ => himm h
  · next himm =>
    rw [not_not] at himm
    split
    · next hk => simp [himm, hk, eq_comm]
    · next hk => simp [hk]

/-- Only the word of an operation decodes to it (30_encoding.md R48): `decodeWord` has looked at all its three fields. -/
theorem encode_of_decodeWord {w : CmdWord} {i : Instr} (h : decodeWord w = .ok i) : encode i = w := by
  rw [← cmdWord_fields w]
  have opc_eq {n : Nat} (hn : (cmdOpc w).toNat = n) : cmdOpc w = BitVec.ofNat 4 n := by simp [← hn]
  unfold decodeWord at h
  split at h
  case h_10 => cases h
  all_goals
    next hopc =>
    simp only [whenZero_eq_ok_iff, withField_eq_ok_iff, Bool.and_eq_true, beq_iff_eq] at h
    simp [opc_eq hopc, h, encode]

end Sys2Proof

namespace Sys2Proof.Machine

/-- A word that decodes to CRC_INIT or CRC_UPDATE is one of those that 10_state.md R17 lets write `ACC`. -/
theorem writesAcc_of_decodeWord {w : CmdWord} {i : Instr} (hdec : decodeWord w = .ok i)
    (hi : i = .crcInit ∨ ∃ v, i = .crcUpdate v) : writesAcc w = true := by
  rw [← encode_of_decodeWord hdec]
  rcases hi with rfl | ⟨v, rfl⟩
  · rfl
  · have := v.isLt
    simp [writesAcc, encode, cmdWord_toNat]
    omega

/-! ### One operation: what it writes and what it reads -/

/-- An operation that takes no data has its operand turned away when there is one (30_encoding.md R45). -/
theorem dataMalformed_of_noDataAllowed {i : Instr} {p : Params} {data : List Byte} (hi : fixedDataLen i = some 0)
    (hdata : data ≠ []) : dataMalformed i p data = true := by
  rw [← Bool.not_eq_false, dataMalformed_eq_false_iff]
  rintro ⟨-, hlen⟩
  exact hdata (List.length_eq_zero_iff.1 (hlen 0 hi))

/-- A run word that changes `ACC` is one of those that write it, and came without data. -/
theorem runWord_writes_acc {w : CmdWord} {s t : State} (h : runWord w s = .next t) (hne : t.acc ≠ s.acc) :
    writesAcc w = true ∧ s.data = [] := by
  rcases runWord_answers w s with ⟨i, acc, v, out, hdec, hrun, hans⟩ | ⟨e, -, hrun⟩
  · cases hrun.symm.trans h
    have hi := hans.accKept hne
    refine ⟨writesAcc_of_decodeWord hdec hi, ?_⟩
    by_contra hdata
    have hbad : dataMalformed i s.params s.data = true :=
      dataMalformed_of_noDataAllowed (by rcases hi with rfl | ⟨v, rfl⟩ <;> rfl) hdata
    have hill : runWord w s = .next (s.answered s.acc 0x30 []) := by
      simp only [runWord, hdec, exec_of_malformed hbad]
    exact hne (congrArg (·.acc) (Host.Outcome.next.inj (hrun.symm.trans hill)))
  · cases hrun.symm.trans h
    exact absurd (answered_acc ..) hne

/-- Every run word is answered, with a response as R85 and R29 allow it. -/
theorem runWord_answers_legal (w : CmdWord) (s : State) :
    ∃ acc v out, runWord w s = .next (s.answered acc v out) ∧ (Response.mk v out).legal = true := by
  rcases runWord_answers w s with ⟨_, acc, v, out, -, hrun, hans⟩ | ⟨_, -, hrun⟩
  · exact ⟨acc, v, out, hrun, hans.legal⟩
  · exact ⟨_, _, _, hrun, rfl⟩

/-- The answer of an operation reads, of the block's state, `ACC` alone. -/
theorem answer_eq_of_acc_eq (i : Instr) (p : Params) (data : List Byte) {b c : Block} (h : b.acc = c.acc) :
    answer i (ruleOf i) p data b = answer i (ruleOf i) p data c := by
  obtain ⟨acc, x⟩ := b
  obtain ⟨_, y⟩ := c
  cases h
  unfold answer
  rw [rule_busy_irrelevant i p data acc x y]
  rfl

/-- What an operation leaves in `ACC` and responds is a function of `ACC` and its arguments. -/
theorem exec_answers_alike (i : Instr) {s u : State} (hacc : s.acc = u.acc) (hparams : s.params = u.params)
    (hdata : s.data = u.data) : ∃ (acc : Byte) (r : Response),
      exec i s = .next (s.answered acc r.status r.out) ∧ exec i u = .next (u.answered acc r.status r.out) := by
  have hidle (x : State) := (answerOf_answer i x.params x.data x.toBlock).idle
  have halike : answer i (ruleOf i) s.params s.data s.toBlock = answer i (ruleOf i) u.params u.data u.toBlock := by
    rw [hparams, hdata]
    exact answer_eq_of_acc_eq i _ _ hacc
  refine ⟨_, _, by rw [exec_eq_serve, serve, deliver_eq_answered (hidle s)], ?_⟩
  rw [exec_eq_serve, serve, deliver_eq_answered (hidle u), halike]

/-- The answers `x` from `b` and `y` from `c` differ in `ACC` alone, and there only if `b` and `c` did: `ACC` is kept in both or
is `INIT` in both. -/
structure AccIgnored (b c : Block) (x y : Answer) : Prop where
  response : x.response = y.response
  busy : x.block.busy = y.block.busy
  acc : (x.block.acc = b.acc ∧ y.block.acc = c.acc) ∨ (x.block.acc = init ∧ y.block.acc = init)

theorem accIgnored_respond (v : Byte) (out : List Byte) (b c : Block) :
    AccIgnored b c (respond v out b) (respond v out c) := ⟨rfl, rfl, .inl ⟨rfl, rfl⟩⟩

theorem accIgnored_raiseError (e : BlockError) (b c : Block) :
    AccIgnored b c (raiseError e b) (raiseError e c) := accIgnored_respond ..

/-- Only the rules of CRC_UPDATE and CRC_READ read `ACC` (10_state.md R17). -/
theorem accIgnored_rule {i : Instr} (hupdate : ∀ v, i ≠ .crcUpdate v) (hread : i ≠ .crcRead) (p : Params)
    (data : List Byte) (b c : Block) : AccIgnored b c (ruleOf i p data b) (ruleOf i p data c) := by
  cases i with
  | crcInit => exact ⟨rfl, rfl, .inr ⟨rfl, rfl⟩⟩
  | crcUpdate v => exact absurd rfl (hupdate v)
  | crcRead => exact absurd rfl hread
  | crcSeq => exact accIgnored_respond ..
  | fieldCheck =>
    simp only [ruleOf, ruleFieldCheck]
    split
    · exact accIgnored_respond ..
    · exact accIgnored_raiseError ..
  | frame n =>
    simp only [ruleOf, ruleFrame]
    split
    · exact accIgnored_raiseError ..
    · exact accIgnored_respond ..
  | scale k =>
    simp only [ruleOf, ruleScale]
    split
    · exact accIgnored_respond ..
    · exact accIgnored_raiseError ..
  | desc k =>
    simp only [ruleOf, ruleDesc]
    split
    · exact accIgnored_raiseError ..
    · exact accIgnored_respond ..
  | decode =>
    simp only [ruleOf, ruleDecode]
    split
    · exact accIgnored_raiseError ..
    · split
      · exact accIgnored_raiseError ..
      · split
        · exact accIgnored_raiseError ..
        · exact accIgnored_respond ..

/-- The data-operand check does not read `ACC` either. -/
theorem accIgnored_answer {i : Instr} (hupdate : ∀ v, i ≠ .crcUpdate v) (hread : i ≠ .crcRead) (p : Params)
    (data : List Byte) (b c : Block) :
    AccIgnored b c (answer i (ruleOf i) p data b) (answer i (ruleOf i) p data c) := by
  unfold answer
  split
  · exact accIgnored_raiseError ..
  · exact accIgnored_rule hupdate hread p data b c

/-- Delivered to states that differ in `ACC` alone, such answers give states that differ in `ACC` alone. -/
theorem deliver_of_accIgnored {s : State} {a : Byte} {x y : Answer}
    (h : AccIgnored s.toBlock { s.toBlock with acc := a } x y) :
    deliver y { s with acc := a } = { deliver x s with acc := (deliver y { s with acc := a }).acc } := by
  simp [deliver, h.response, h.busy]

/-! ### One step -/

theorem inv_answered {s : State} (hs : s.Inv) (acc : Byte) {v : Byte} {out : List Byte}
    (hlegal : (Response.mk v out).legal = true) : (s.answered acc v out).Inv where
  idle := rfl
  noOperand := rfl
  legalResponses r hr := by
    rcases List.mem_append.1 hr with hold | hnew
    · exact hs.legalResponses r hold
    · rw [List.mem_singleton.1 hnew]
      exact hlegal

theorem inv_resetBlock {s : State} (hs : s.Inv) : (resetBlock s).Inv := ⟨rfl, rfl, hs.legalResponses⟩

/-- A request that is no CRC_INIT or CRC_UPDATE without data is answered in one step that keeps `ACC`. -/
theorem step_request_keeps_acc {s : State} {r : Request} {rest : List PortEvent} (hin : s.inputs = .request r :: rest)
    (hidle : s.busy = false) (hpure : writesAcc r.word = false ∨ r.data ≠ []) :
    ∃ v out, step s = .next ({ s with inputs := rest }.answered s.acc v out) := by
  obtain ⟨acc, v, out, hrun, -⟩ := runWord_answers_legal r.word (accept r { s with inputs := rest })
  have hkeep : acc = s.acc := by
    by_contra hne
    obtain ⟨hword, hdata⟩ := runWord_writes_acc hrun hne
    rcases hpure with hpure | hpure
    · rw [hpure] at hword
      cases hword
    · exact hpure hdata
  refine ⟨v, out, ?_⟩
  rw [step_of_request hin hidle, hrun, hkeep]
  rfl

/-- A run word's answer is a function of `ACC`, the parameters and the data operand. -/
theorem runWord_answers_alike (w : CmdWord) {s u : State} (hacc : s.acc = u.acc) (hparams : s.params = u.params)
    (hdata : s.data = u.data) : ∃ acc v out,
      runWord w s = .next (s.answered acc v out) ∧ runWord w u = .next (u.answered acc v out) := by
  unfold runWord
  split
  · next i _ =>
    obtain ⟨acc, r, hs, hu⟩ := exec_answers_alike i hacc hparams hdata
    exact ⟨acc, r.status, r.out, hs, hu⟩
  · exact ⟨s.acc, 0x30, [], rfl, by rw [hacc]; rfl⟩

/-- Two states that a step cannot tell apart: the same block state, parameters and events at the port. -/
structure State.Alike (s u : State) : Prop where
  block : s.toBlock = u.toBlock
  params : s.params = u.params
  inputs : s.inputs = u.inputs

/-- From `s` and `u` the same responses `new` were returned on the way to `t` and `v`, which are alike, and no parameter was
written. -/
structure State.AlikeAfter (s u t v : State) (new : List Response) : Prop where
  alike : t.Alike v
  responses : t.responses = s.responses ++ new
  responses' : v.responses = u.responses ++ new
  params : t.params = s.params

/-- Alike states take alike steps. -/
theorem step_alike {s u t : State} (h : s.Alike u) (hstep : step s = .next t) :
    ∃ v new, step u = .next v ∧ s.AlikeAfter u t v new := by
  obtain ⟨hblock, hparams, hinputs⟩ := h
  rcases step_next_cases hstep with ⟨r, rest, hin, hidle, hrun⟩ | ⟨rest, hin, rfl⟩
  · obtain ⟨acc, v, out, hs, hu⟩ := runWord_answers_alike r.word
      (s := accept r { s with inputs := rest }) (u := accept r { u with inputs := rest })
      (congrArg (·.acc) hblock :) hparams rfl
    cases hs.symm.trans hrun
    have hstep' := (step_of_request (hinputs ▸ hin) (hblock ▸ hidle)).trans hu
    exact ⟨_, [⟨v, out⟩], hstep', ⟨rfl, hparams, rfl⟩, rfl, rfl, rfl⟩
  · exact ⟨_, [], step_of_reset (hinputs ▸ hin), ⟨rfl, hparams, rfl⟩, by simp, by simp, rfl⟩

/-! ### Runs -/

/-- A run of `k + 1` steps is a step and a run of `k`. -/
theorem runsTo_succ_cases {k : Nat} {s u : State} (h : RunsTo (k + 1) s u) : ∃ t, step s = .next t ∧ RunsTo k t u := by
  simp only [RunsTo, Host.Core.run] at h
  split at h
  · next t hstep => exact ⟨t, hstep, h⟩
  · cases h
  · cases h

/-- Alike states have alike runs. -/
theorem runsTo_alike {k : Nat} {s u t : State} (h : s.Alike u) (hrun : RunsTo k s t) :
    ∃ v new, RunsTo k u v ∧ s.AlikeAfter u t v new := by
  induction k generalizing s u with
  | zero =>
    cases hrun
    exact ⟨u, [], runsTo_zero u, h, by simp, by simp, rfl⟩
  | succ k ih =>
    obtain ⟨s', hstep, hrun'⟩ := runsTo_succ_cases hrun
    obtain ⟨u', new, hstep', hafter⟩ := step_alike h hstep
    obtain ⟨v, new', hrun'', hafter'⟩ := ih hafter.alike hrun'
    refine ⟨v, new ++ new', runsTo_succ hstep' hrun'', hafter'.alike, ?_, ?_, hafter'.params.trans hafter.params⟩
    · rw [hafter'.responses, hafter.responses, List.append_assoc]
    · rw [hafter'.responses', hafter.responses', List.append_assoc]

/-! ### The obligations -/

/-- Settles O14: a step answers a request legally or resets the block, and either keeps the invariant. -/
theorem stepKeepsInv : Obligations.StepKeepsInv := by
  intro s t hs hstep
  rcases step_next_cases hstep with ⟨r, rest, -, -, hrun⟩ | ⟨rest, -, rfl⟩
  · obtain ⟨acc, v, out, hans, hlegal⟩ := runWord_answers_legal r.word (accept r { s with inputs := rest })
    cases hans.symm.trans hrun
    exact inv_answered (s := { s with inputs := rest }) ⟨hs.idle, hs.noOperand, hs.legalResponses⟩ acc hlegal
  · exact inv_resetBlock ⟨hs.idle, hs.noOperand, hs.legalResponses⟩

/-- Settles O16: of the words a request can hold, only those that decode to CRC_INIT or CRC_UPDATE write `ACC`. -/
theorem onlyInitUpdateResetWriteAcc : Obligations.OnlyInitUpdateResetWriteAcc := by
  intro s t hstep hne
  rcases step_next_cases hstep with ⟨r, rest, hin, -, hrun⟩ | ⟨rest, hin, -⟩
  · exact .inr ⟨r, rest, hin, (runWord_writes_acc hrun hne).left⟩
  · exact .inl ⟨rest, hin⟩

/-- Settles O17: every other operation's answer keeps `ACC`, or writes `INIT`, with a response `ACC` has no part in. -/
theorem onlyUpdateReadReadAcc : Obligations.OnlyUpdateReadReadAcc := by
  intro i s a hupdate hread
  have h := accIgnored_answer hupdate hread s.params s.data s.toBlock { s.toBlock with acc := a }
  exact ⟨_, _, exec_eq_serve i s, exec_eq_serve i _, deliver_of_accIgnored h, h.acc⟩

/-- Settles O19, by induction on the requests: each is answered in one step that keeps `ACC`. -/
theorem accPersistsThroughPureRequests : Obligations.AccPersistsThroughPureRequests := by
  intro reqs
  induction reqs with
  | nil =>
    intro s rest _ hin hidle
    exact ⟨s, runsTo_zero s, rfl, hin, hidle, rfl⟩
  | cons r reqs ih =>
    intro s rest hpure hin hidle
    obtain ⟨v, out, hstep⟩ := step_request_keeps_acc hin hidle (hpure r List.mem_cons_self)
    obtain ⟨t, hrun, hacc, hrest, hbusy, hlen⟩ :=
      ih ({ s with inputs := reqs.map PortEvent.request ++ rest }.answered s.acc v out) rest
        (fun r' hr' => hpure r' (List.mem_cons_of_mem r hr')) rfl rfl
    refine ⟨t, runsTo_succ hstep hrun, hacc, hrest, hbusy, ?_⟩
    simp at hlen ⊢
    omega

/-- Settles O54: an operation's rule and the data-operand check before it read `ACC` and their arguments alone. -/
theorem answerReadsAccAndArgumentsOnly : Obligations.AnswerReadsAccAndArgumentsOnly :=
  fun i _ _ hacc hparams hdata => exec_answers_alike i hacc hparams hdata

/-- Settles O55: alike states have alike runs. -/
theorem accAndBusyAreTheCompleteState : Obligations.AccAndBusyAreTheCompleteState := by
  intro k s u t hblock hparams hinputs hrun
  obtain ⟨v, new, hrun', ⟨hblock', hparams', hinputs'⟩, hresp, hresp', hkept⟩ :=
    runsTo_alike ⟨hblock, hparams, hinputs⟩ hrun
  exact ⟨v, new, hrun', hblock'.symm, hinputs'.symm, hresp, hresp', hkept, by rw [← hparams', hkept, hparams]⟩

end Sys2Proof.Machine

namespace Sys2Proof

/-! ### The command word of an instruction, and its two bytes on a byte port -/

/-- `encode` gives the number of the instruction's row in the table of 30_encoding.md R42. -/
theorem encode_toNat (i : Instr) : (encode i).toNat = Machine.tableWord i := by
  cases i with
  | scale k | desc k =>
    simp only [encode, cmdWord_toNat, Machine.tableWord, BitVec.reduceToNat]
    omega
  | _ => simp [encode, cmdWord_toNat, Machine.tableWord]

/-- `decodeWord` reads back the fields that `encode` wrote; `k` is in the table's range where there is one. -/
theorem decodeWord_encode {i : Instr} (hwf : i.wellFormed = true) : decodeWord (encode i) = .ok i := by
  cases i with
  | scale k | desc k =>
    have hk : k.toNat ≤ 6 := of_decide_eq_true hwf
    simp [encode, decodeWord, withField_eq_ok_iff, hk]
  | _ => simp [encode, decodeWord, whenZero_eq_ok_iff]

/-- The high byte goes first (20_memory.md R33). -/
theorem map_toNat_bytesOfWord (w : CmdWord) :
    (bytesOfWord w).map BitVec.toNat = [w.toNat / 256, w.toNat % 256] := by
  have hhi : (w.extractLsb' 8 8).toNat = w.toNat / 256 := by
    have := w.isLt
    simp [Nat.shiftRight_eq_div_pow]
    omega
  have hlo : (w.extractLsb' 0 8).toNat = w.toNat % 256 := cmdImm_toNat w
  simp only [bytesOfWord, List.map_cons, List.map_nil, hhi, hlo]

/-- What follows the word on a byte port is the data operand, unread by the decoder (30_encoding.md R41). -/
theorem decodeBytes_bytesOfWord {w : CmdWord} {i : Instr} (data : List Byte) (h : decodeWord w = .ok i) :
    decodeBytes (bytesOfWord w ++ data) = .ok (i, data) := by
  simp only [decodeBytes, wordOfBytes_bytesOfWord, h]

/-- Settles O4: the two bytes of the table's word come first, and the decoder takes them and leaves the data. -/
theorem bytePortRoundTrip : Obligations.BytePortRoundTrip := by
  intro i data hwf
  constructor
  · simp only [encodeBytes, List.map_append, map_toNat_bytesOfWord, encode_toNat, List.cons_append, List.nil_append]
  · exact decodeBytes_bytesOfWord data (decodeWord_encode hwf)

end Sys2Proof

namespace Sys2Proof.Machine

/-! ### The request port -/

theorem runWord_of_decodeWord {w : CmdWord} {i : Instr} (h : decodeWord w = .ok i) (s : State) :
    runWord w s = exec i s := by
  simp only [runWord, h]

/-- Settles O5: the accepted request's word is run, and it decodes to `i`. -/
theorem stepRunsDecodedInstruction : Obligations.StepRunsDecodedInstruction := by
  intro s r rest i hin hidle hdec
  calc step s = runWord r.word (accept r { s with inputs := rest }) := step_of_request hin hidle
    _ = exec i (accept r { s with inputs := rest }) := runWord_of_decodeWord hdec _

/-- Settles O9: a step that goes on took a request at an idle port, or a reset, and here it is neither. -/
theorem busyPortTakesNoRequest : Obligations.BusyPortTakesNoRequest := by
  intro s r rest hin hbusy t hstep
  rcases step_next_cases hstep with ⟨_, _, -, hidle, -⟩ | ⟨_, hreset, -⟩
  · exact Bool.false_ne_true (hidle.symm.trans hbusy)
  · cases hin.symm.trans hreset

end Sys2Proof.Machine

namespace Sys2Proof

/-! ### The decoder is the table of 30_encoding.md R42 -/

/-- The decoder gives no instruction outside R42's table: it lets a field index through only up to 6. -/
theorem wellFormed_of_decodeWord {w : CmdWord} {i : Instr} (h : decodeWord w = .ok i) : i.wellFormed = true := by
  unfold decodeWord at h
  split at h
  case h_10 => cases h
  all_goals
    simp only [whenZero_eq_ok_iff, withField_eq_ok_iff] at h
    simp [h, Instr.wellFormed]

theorem decodeWord_eq_ok_iff {w : CmdWord} {i : Instr} :
    decodeWord w = .ok i ↔ i.wellFormed = true ∧ w.toNat = Machine.tableWord i := by
  constructor
  · intro h
    exact ⟨wellFormed_of_decodeWord h, by rw [← encode_toNat, encode_of_decodeWord h]⟩
  · rintro ⟨hwf, hw⟩
    have henc : w = encode i := BitVec.eq_of_toNat_eq (hw.trans (encode_toNat i).symm)
    rw [henc, decodeWord_encode hwf]

/-- A table word is decoded as the command word in its low 16 bits. -/
theorem decodeWord_of_decodeTableWord {nbits w : Nat} {i : Instr} (h : decodeTableWord nbits w = some i) :
    decodeWord (BitVec.ofNat 16 (w % 2 ^ nbits)) = .ok i := by
  have hbytes := wordOfBytes_bytesOfWord (BitVec.ofNat 16 (w % 2 ^ nbits)) []
  rw [List.append_nil] at hbytes
  cases hdec : decodeWord (BitVec.ofNat 16 (w % 2 ^ nbits)) with
  | error e => simp [decodeTableWord, decodeBytes, hbytes, hdec] at h
  | ok j =>
    have hji : j = i := by simpa [decodeTableWord, decodeBytes, hbytes, hdec] using h
    rw [hji]

/-- Settles O2: the decoder reads back the fields that the encoder wrote. -/
theorem decodeOfEncode : Obligations.DecodeOfEncode := fun _ hwf => decodeWord_encode hwf

/-- Settles O3: what decodes is well-formed and encodes to the word it came from, and encoding is the opcode map. -/
theorem decodeIsTheOpcodeMap : Obligations.DecodeIsTheOpcodeMap := fun _ _ => decodeWord_eq_ok_iff

/-- Settles O1: the decoder runs on the twelve words. -/
theorem specWordsDecode : Obligations.SpecWordsDecode := by
  unfold Obligations.SpecWordsDecode
  decide

end Sys2Proof

namespace Sys2Proof.Machine

/-! ### Illegal requests -/

/-- Whatever the operation, an operand over `P_MAX_DATA` fails the data-operand check. -/
theorem dataMalformed_of_not_admits (i : Instr) {p : Params} {data : List Byte} (h : ¬ Admits p data) :
    dataMalformed i p data = true := by
  rw [← Bool.not_eq_false, dataMalformed_eq_false_iff]
  exact fun hfits => h hfits.left

/-- R42's rows end below 0x9000, even with the field indexes 7 to 15 that R43 leaves out. -/
theorem tableWord_lt (i : Instr) : tableWord i < 0x9000 := by
  cases i with
  | crcUpdate v | frame v | scale v | desc v =>
    have := v.isLt
    simp only [tableWord]
    omega
  | _ => decide

/-- At an idle port, a request whose word is no command, or whose data operand is malformed for the command that it is, is
answered IllegalOperation and changes nothing (30_encoding.md R46, R47). -/
theorem step_illegal {s : State} {r : Request} {rest : List PortEvent} (hin : s.inputs = .request r :: rest)
    (hidle : s.busy = false) (hbad : ∀ i, decodeWord r.word = .ok i → dataMalformed i s.params r.data = true) :
    step s = .next ({ s with inputs := rest }.answered s.acc 0x30 []) := by
  rw [step_of_request hin hidle]
  cases hdec : decodeWord r.word with
  | error e => simp only [runWord, hdec]; rfl
  | ok i => rw [runWord_of_decodeWord hdec]; exact exec_of_malformed (hbad i hdec)

/-- Settles O7: no row of the table is at 0x9000 or above. -/
theorem reservedOpcodeIsIllegal : Obligations.ReservedOpcodeIsIllegal := by
  intro s r rest hin hidle hword
  refine step_illegal hin hidle fun i hdec => ?_
  obtain ⟨-, hi⟩ := decodeWord_eq_ok_iff.1 hdec
  exact absurd (hi ▸ hword) (Nat.not_le.2 (tableWord_lt i))

/-- Settles O8: a word that decodes has its row's fields, and an operand that passes the check is admitted and has its row's
length, so none of R47's clauses holds of the two. -/
theorem malformedRequestIsIllegal : Obligations.MalformedRequestIsIllegal := by
  intro s r rest hin hidle hbad
  refine step_illegal hin hidle fun i hdec => ?_
  by_contra hok
  obtain ⟨hfit, hlen⟩ := (dataMalformed_eq_false_iff ..).1 (Bool.not_eq_true _ ▸ hok)
  have hwf := wellFormed_of_decodeWord hdec
  simp only [← cmdOpc_toNat, ← cmdK_toNat, ← cmdImm_toNat, ← encode_of_decodeWord hdec] at hbad
  cases i with
  | scale k | desc k =>
    have hk : ¬ 7 ≤ k.toNat := Nat.not_le.2 (Nat.lt_succ_of_le (of_decide_eq_true hwf))
    simp [encode, fixedDataLen, hfit, hk] at hbad hlen
    exact hbad hlen
  | _ => simp_all [encode, fixedDataLen]

/-- Settles O29: the data-operand check comes before every operation's rule. -/
theorem oversizeDataIsIllegalEverywhere : Obligations.OversizeDataIsIllegalEverywhere :=
  fun i _ hover => exec_of_malformed (dataMalformed_of_not_admits i hover)

/-! ### A request made from a table word -/

/-- Settles O6: the word presented decodes to `i`, so its step is `exec i`, with the operand presented with it. -/
theorem fetchWordIsRunNext : Obligations.FetchWordIsRunNext := by
  intro s w i htab
  have hdata : (tableRequest 16 w).data = List.replicate (requestDataLen i) 0 := by simp only [tableRequest, htab]
  rw [← hdata]
  exact stepRunsDecodedInstruction (s.withFetchWord 16 w) (tableRequest 16 w) s.inputs i rfl rfl
    (decodeWord_of_decodeTableWord htab)

/-! ### CHECK_GROUP -/

/-- Settles O52: the three bytes are those that `checkGroup` cuts out of the buffer. -/
theorem checkGroupExpansion : Obligations.CheckGroupExpansion := by
  intro buf g v0 v1 c h0 h1 h2
  have hcut : (buf.drop (groupBytes * g)).take groupBytes = [v0, v1, c] := by
    rw [groupBytes, List.drop_eq_getElem?_toList_append, h0, List.drop_eq_getElem?_toList_append, h1,
      List.drop_eq_getElem?_toList_append, h2]
    rfl
  rw [checkGroup, hcut]
  rfl

end Sys2Proof.Machine

namespace Sys2Proof.Machine

/-! ### The assembler's lexer: words and what ends them -/

/-- The characters that end a word: space, tab and the two braces. -/
abbrev BreaksWord (c : Char) : Prop := c.toNat = 32 ∨ c.toNat = 9 ∨ c.toNat = 123 ∨ c.toNat = 125

/-- A run of characters that the lexer keeps together. -/
abbrev IsWord (w : List Char) : Prop := w ≠ [] ∧ ∀ c ∈ w, ¬ BreaksWord c

/-- A breaking character ends the word being read, and is then lexed as at the start of a line. -/
theorem lexLine_cons_of_breaks {c : Char} (hc : BreaksWord c) (cur cs : List Char) :
    lexLine cur (c :: cs) = flushWord cur ++ lexLine [] (c :: cs) := by
  simp only [lexLine]
  rcases hc with hc | hc | hc | hc <;> simp [hc, flushWord]

/-- Any other character joins the word being read. -/
theorem lexLine_cons_of_not_breaks {c : Char} (hc : ¬ BreaksWord c) (cur cs : List Char) :
    lexLine cur (c :: cs) = lexLine (cur ++ [c]) cs := by
  simp only [BreaksWord, not_or] at hc
  simp [lexLine, hc]

theorem lexLine_append_of_not_breaks {w : List Char} (hw : ∀ c ∈ w, ¬ BreaksWord c) (cur cs : List Char) :
    lexLine cur (w ++ cs) = lexLine (cur ++ w) cs := by
  induction w generalizing cur with
  | nil => simp
  | cons c w ih =>
    rw [List.forall_mem_cons] at hw
    rw [List.cons_append, lexLine_cons_of_not_breaks hw.left, ih hw.right, List.append_assoc, List.singleton_append]

/-- A word, with what ends it, is one token. -/
theorem lexLine_word {w : List Char} (hw : IsWord w) {c : Char} (hc : BreaksWord c) (cs : List Char) :
    lexLine [] (w ++ c :: cs) = .word w :: lexLine [] (c :: cs) := by
  obtain ⟨hne, hkeep⟩ := hw
  rw [lexLine_append_of_not_breaks hkeep, List.nil_append, lexLine_cons_of_breaks hc]
  simp [flushWord, hne]

@[simp] theorem lexLine_space (cs : List Char) : lexLine [] (' ' :: cs) = lexLine [] cs := rfl

@[simp] theorem lexLine_openBrace (cs : List Char) : lexLine [] (openBrace :: cs) = .openData :: lexLine [] cs := rfl

@[simp] theorem lexLine_closeBrace (cs : List Char) : lexLine [] (closeBrace :: cs) = .closeData :: lexLine [] cs := rfl

/-! ### The digits that are written -/

theorem hexDigit_hexChar {n : Nat} (h : n < 16) : hexDigit (hexChar n) = some n := by
  revert n
  decide

theorem not_breaksWord_hexChar {n : Nat} (h : n < 16) : ¬ BreaksWord (hexChar n) := by
  revert n
  decide

theorem highDigit_lt (b : Byte) : b.toNat / 16 < 16 := by
  have := b.isLt
  omega

theorem lowDigit_lt (b : Byte) : b.toNat % 16 < 16 := Nat.mod_lt _ (by decide)

theorem isWord_byteChars (b : Byte) : IsWord (byteChars b) := by
  simp only [IsWord, byteChars, List.forall_mem_cons]
  exact ⟨nofun, not_breaksWord_hexChar (highDigit_lt b), not_breaksWord_hexChar (lowDigit_lt b), nofun⟩

@[simp] theorem byteOf_byteChars (b : Byte) : byteOf (byteChars b) = some b := by
  simp [byteOf, byteChars, hexDigit_hexChar (highDigit_lt b), hexDigit_hexChar (lowDigit_lt b), Nat.div_add_mod']

/-- A number as `instrChars` writes it. -/
def hexWord (digits : List Char) : List Char := '0' :: 'x' :: digits

theorem isWord_hexWord {digits : List Char} (h : IsWord digits) : IsWord (hexWord digits) := by
  simp only [IsWord, hexWord, List.forall_mem_cons]
  exact ⟨nofun, by decide, by decide, h.right⟩

@[simp] theorem numberOf_hexWord_byteChars (b : Byte) : numberOf (hexWord (byteChars b)) = some b.toNat := by
  simp [numberOf, hexWord, byteChars, digitsValue, hexDigit_hexChar (highDigit_lt b), hexDigit_hexChar (lowDigit_lt b),
    highDigit_lt, lowDigit_lt, Nat.div_add_mod']

@[simp] theorem numberOf_hexWord_fieldIndex (k : FieldIndex) : numberOf (hexWord [hexChar k.toNat]) = some k.toNat := by
  have hk : k.toNat < 16 := k.isLt
  simp [numberOf, hexWord, digitsValue, hexDigit_hexChar hk, hk]

/-! ### The data operand -/

/-- The tokens of a data operand's bytes and its closing brace. -/
def dataTokens (bs : List Byte) : List Token := bs.map (fun b => .word (byteChars b)) ++ [.closeData]

@[simp] theorem dataTokens_cons (b : Byte) (bs : List Byte) :
    dataTokens (b :: bs) = .word (byteChars b) :: dataTokens bs := rfl

theorem lexLine_dataBytes (bs : List Byte) :
    lexLine [] ([' '].intercalate (bs.map byteChars) ++ [closeBrace]) = dataTokens bs := by
  induction bs with
  | nil => rfl
  | cons b bs ih =>
    cases bs with
    | nil => exact lexLine_word (isWord_byteChars b) (by decide) []
    | cons b' bs =>
      have hsep : [' '].intercalate ((b :: b' :: bs).map byteChars) ++ [closeBrace] =
          byteChars b ++ ' ' :: ([' '].intercalate ((b' :: bs).map byteChars) ++ [closeBrace]) := by
        simp [List.intercalate]
      rw [hsep, lexLine_word (isWord_byteChars b) (by decide), lexLine_space, ih, dataTokens_cons b]

theorem lexLine_dataChars (bs : List Byte) : lexLine [] (dataChars bs) = .openData :: dataTokens bs := by
  rw [dataChars, lexLine_openBrace, lexLine_dataBytes]

@[simp] theorem dataOf_dataTokens (bs : List Byte) : dataOf (dataTokens bs) = some bs := by
  induction bs with
  | nil => rfl
  | cons b bs ih =>
    simp [dataOf, ih]

/-! ### The line of a request -/

/-- The mnemonic that a request's line begins with. -/
def mnemonicOf : Instr → Mnemonic
  | .crcInit => .crcInit
  | .crcUpdate _ => .crcUpdate
  | .crcRead => .crcRead
  | .crcSeq => .crcSeq
  | .fieldCheck => .fieldCheck
  | .frame _ => .frame
  | .scale _ => .scale
  | .desc _ => .desc
  | .decode => .decode

/-- The command-word operand of a request's line, if any, as it is written. -/
def operandWords : Instr → List (List Char)
  | .crcUpdate v | .frame v => [hexWord (byteChars v)]
  | .scale k | .desc k => [hexWord [hexChar k.toNat]]
  | _ => []

/-- The command-word operand of a request's line, if any. -/
def operandNumbers : Instr → List Nat
  | .crcUpdate v | .frame v => [v.toNat]
  | .scale k | .desc k => [k.toNat]
  | _ => []

/-- A request's line is its words, each with a space after it, and the data operand. -/
theorem requestChars_eq (i : Instr) (data : List Byte) :
    requestChars i data = ((mnemonicOf i).chars :: operandWords i).flatMap (· ++ [' ']) ++ dataChars data := by
  cases i <;> simp [requestChars, instrChars, mnemonicOf, operandWords, hexWord]

theorem isWord_mnemonic (m : Mnemonic) : IsWord m.chars := by
  cases m <;> simp [IsWord, BreaksWord, Mnemonic.chars]

theorem isWord_of_mem_operandWords {i : Instr} {w : List Char} (hw : w ∈ operandWords i) : IsWord w := by
  cases i with
  | crcUpdate v | frame v =>
    rw [List.mem_singleton.1 hw]
    exact isWord_hexWord (isWord_byteChars v)
  | scale k | desc k =>
    rw [List.mem_singleton.1 hw]
    exact isWord_hexWord ⟨nofun, by simpa using not_breaksWord_hexChar k.isLt⟩
  | _ => cases hw

theorem lexLine_words {ws : List (List Char)} (hws : ∀ w ∈ ws, IsWord w) (cs : List Char) :
    lexLine [] (ws.flatMap (· ++ [' ']) ++ cs) = ws.map .word ++ lexLine [] cs := by
  induction ws with
  | nil => rfl
  | cons w ws ih =>
    rw [List.forall_mem_cons] at hws
    simp only [List.flatMap_cons, List.append_assoc, List.cons_append, List.nil_append, List.map_cons]
    rw [lexLine_word hws.left (by decide), lexLine_space, ih hws.right]

theorem lexLine_requestChars (i : Instr) (data : List Byte) :
    lexLine [] (requestChars i data) =
      .word (mnemonicOf i).chars :: ((operandWords i).map .word ++ .openData :: dataTokens data) := by
  have hwords : ∀ w ∈ (mnemonicOf i).chars :: operandWords i, IsWord w :=
    List.forall_mem_cons.2 ⟨isWord_mnemonic _, fun _ => isWord_of_mem_operandWords⟩
  rw [requestChars_eq, lexLine_words hwords, lexLine_dataChars]
  rfl

/-! ### What the line assembles to -/

theorem find?_mnemonic (m : Mnemonic) : allMnemonics.find? (fun x => x.chars == m.chars) = some m := by
  cases m <;> decide

theorem operandsOf_requestLine (i : Instr) (data : List Byte) :
    operandsOf ((operandWords i).map .word ++ .openData :: dataTokens data) = some (operandNumbers i, data) := by
  cases i <;> simp [operandWords, operandNumbers, operandsOf]

/-- The assembler's numbers fit the fields that they came from. -/
theorem requestsOf_operandNumbers (i : Instr) (data : List Byte) :
    requestsOf (mnemonicOf i) (operandNumbers i) data = some [requestOf i data] := by
  cases i with
  | crcUpdate v | frame v =>
    have hv : v.toNat < 256 := v.isLt
    simp [mnemonicOf, operandNumbers, requestsOf, byteOfNat, hv]
  | scale k | desc k =>
    have hk : k.toNat < 16 := k.isLt
    simp [mnemonicOf, operandNumbers, requestsOf, hk]
  | _ => rfl

/-- Settles O53: the lexer cuts the line into the words that were written, and these read back as the mnemonic, its operand
and the data. -/
theorem assemblerRoundTrip : Obligations.AssemblerRoundTrip := by
  intro i data
  simp only [assembleLine, lexLine_requestChars, find?_mnemonic, operandsOf_requestLine, requestsOf_operandNumbers]
  rfl

end Sys2Proof.Machine

namespace Sys2Proof.Machine

/-! ### The checksum's step -/

theorem crcRounds_eq_iterate (n : Nat) : crcRounds n = crcRound^[n] := by
  induction n with
  | zero => rfl
  | succ n ih =>
    funext x
    rw [Function.iterate_succ_apply, ← ih, crcRounds]

theorem crcRound_injective : Function.Injective crcRound := by
  have hzero : ∀ x : Byte, crcRound x = 0 → x = 0 := by decide
  intro x y h
  rw [← BitVec.xor_eq_zero_iff] at h ⊢
  exact hzero _ ((crcRound_xor x y).trans h)

theorem crcRounds_injective (n : Nat) : Function.Injective (crcRounds n) := by
  rw [crcRounds_eq_iterate]
  exact crcRound_injective.iterate n

@[simp] theorem crcRounds_zero (n : Nat) : crcRounds n 0#8 = 0#8 := by
  simpa using crcRounds_xor n 0 0

@[simp] theorem crcRounds_eq_zero_iff {n : Nat} {x : Byte} : crcRounds n x = 0#8 ↔ x = 0#8 := by
  rw [← (crcRounds_injective n).eq_iff (a := x), crcRounds_zero]

/-- 40_checksum.md R62 (a): the step depends on the exclusive-or of its arguments alone. -/
theorem crc8Step_eq_step_of_xor (a b : Byte) : crc8Step a b = crc8Step 0 (a ^^^ b) := by
  simp [crc8Step]

/-- 40_checksum.md R62 (b): the step is linear in both arguments together. -/
theorem crc8Step_xor (a b x y : Byte) : crc8Step (a ^^^ x) (b ^^^ y) = crc8Step a b ^^^ crc8Step x y := by
  have hpairs : (a ^^^ x) ^^^ (b ^^^ y) = (a ^^^ b) ^^^ (x ^^^ y) := by ac_rfl
  rw [crc8Step, hpairs, crcRounds_xor]
  rfl

theorem crc8Step_xor_right (a b y : Byte) : crc8Step a (b ^^^ y) = crc8Step a b ^^^ crc8Step 0 y := by
  rw [← crc8Step_xor]
  exact congrArg (crc8Step · _) BitVec.xor_zero.symm

@[simp] theorem crc8Step_self (a : Byte) : crc8Step a a = 0 := by
  simp [crc8Step]

/-- After any accumulator, distinct bytes give distinct checksums, and so every checksum is reached. -/
theorem crc8Step_bijective (a : Byte) : Function.Bijective (crc8Step a) := by
  refine Finite.injective_iff_bijective.1 fun x y h => ?_
  exact (BitVec.xor_right_inj a).1 (crcRounds_injective 8 h)

theorem crc8_append_singleton (bytes : List Byte) (b : Byte) : crc8 (bytes ++ [b]) = crc8Step (crc8 bytes) b :=
  List.foldl_concat ..

/-- Settles O22: each round in numbers, eight times. -/
theorem crcStepIsEightRounds : Obligations.CrcStepIsEightRounds := by
  intro a b
  rw [crc8Step, crcRounds_eq_iterate, ← BitVec.toNat_xor]
  exact Function.Semiconj.iterate_right (f := BitVec.toNat) (ga := crcRound) (fun x => crcRound_toNat x) 8 (a ^^^ b)

/-- Settles O23: `crc8` is a left fold from `INIT`. -/
theorem crcOfSequence : Obligations.CrcOfSequence := ⟨rfl, crc8_append_singleton⟩

/-- Settles O45: the rounds are linear over exclusive-or. -/
theorem crcStepIsLinear : Obligations.CrcStepIsLinear :=
  ⟨crc8Step_eq_step_of_xor, crc8Step_xor_right 0, crc8Step_self⟩

/-- Settles O47: the last step is that of the checksum and itself. -/
theorem ownChecksumLeavesZero : Obligations.OwnChecksumLeavesZero := by
  intro bytes
  rw [crc8_append_singleton, crc8Step_self]

/-- Settles O48: the low byte is the last one folded in. -/
theorem checksumsAreUniform : Obligations.ChecksumsAreUniform := fun hi c =>
  (crc8Step_bijective (crc8 [hi])).existsUnique c

/-! ### The step table's entries at the powers of two -/

/-- The exclusive-or of the values `g` at the bits of `x` that are set. -/
def xorAtBits (x : Byte) (g : Nat → Byte) (r : Byte) (bits : List Nat) : Byte :=
  bits.foldl (fun r j => if x.getLsbD j then r ^^^ g j else r) r

theorem xorAtBits_cons (x : Byte) (g : Nat → Byte) (r : Byte) (j : Nat) (bits : List Nat) :
    xorAtBits x g r (j :: bits) = xorAtBits x g (if x.getLsbD j then r ^^^ g j else r) bits := rfl

theorem crcRounds_xorAtBits (n : Nat) (x : Byte) (g : Nat → Byte) (r : Byte) (bits : List Nat) :
    crcRounds n (xorAtBits x g r bits) = xorAtBits x (fun j => crcRounds n (g j)) (crcRounds n r) bits := by
  induction bits generalizing r with
  | nil => rfl
  | cons j bits ih =>
    rw [xorAtBits_cons, xorAtBits_cons, ih, apply_ite (crcRounds n), crcRounds_xor]

/-- A byte is the exclusive-or of the powers of two at its set bits. -/
theorem xorAtBits_twoPow (x : Byte) : xorAtBits x (BitVec.twoPow 8) 0#8 (List.range 8) = x := by
  revert x
  decide

theorem crcRounds_twoPow {j : Nat} (hj : j ∈ List.range 8) :
    crcRounds 8 (BitVec.twoPow 8 j) = ([0x31, 0x62, 0xC4, 0xB9, 0x43, 0x86, 0x3D, 0x7A] : List Byte).getD j 0 := by
  revert j
  decide

/-- Settles O46: the exclusive-or of the arguments is that of its set bits, the rounds are linear, and the table holds their
values at the powers of two. -/
theorem crcStepOfPowers : Obligations.CrcStepOfPowers := by
  intro a b
  calc crc8Step a b
      = crcRounds 8 (xorAtBits (a ^^^ b) (BitVec.twoPow 8) 0#8 (List.range 8)) := by rw [xorAtBits_twoPow, crc8Step]
    _ = xorAtBits (a ^^^ b) (fun j => crcRounds 8 (BitVec.twoPow 8 j)) 0#8 (List.range 8) := by
      rw [crcRounds_xorAtBits, crcRounds_zero]
    _ = _ := List.foldl_ext _ _ _ fun r j hj => by simp only [crcRounds_twoPow hj]

/-! ### The results of the checksum operations -/

/-- An operand of another length than the operation's fixed one is turned away (30_encoding.md R45). -/
theorem dataMalformed_of_length_ne {i : Instr} {n : Nat} {p : Params} {data : List Byte} (hi : fixedDataLen i = some n)
    (hlen : data.length ≠ n) : dataMalformed i p data = true := by
  rw [← Bool.not_eq_false, dataMalformed_eq_false_iff]
  exact fun ⟨_, h⟩ => hlen (h n hi)

/-- Without data, an operation that takes none reaches its rule, whatever `P_MAX_DATA` is. -/
theorem exec_of_noData {i : Instr} {s : State} (hi : fixedDataLen i = some 0) (hdata : s.data = []) :
    exec i s = .next (deliver (ruleOf i s.params [] s.toBlock) s) := by
  have hlen : ∀ n, fixedDataLen i = some n → s.data.length = n := fun n hn => by
    simpa [hdata] using Option.some.inj (hi.symm.trans hn)
  rw [exec_of_fits (hdata ▸ admits_nil s.params) hlen, hdata]

/-- With data, an operation that takes none is IllegalOperation. -/
theorem exec_of_unwantedData {i : Instr} {s : State} (hi : fixedDataLen i = some 0) (hdata : s.data ≠ []) :
    exec i s = .next (s.answered s.acc 0x30 []) := exec_of_malformed (dataMalformed_of_noDataAllowed hi hdata)

theorem exec_fieldCheck_of_group {s : State} {v0 v1 c : Byte} (hdata : s.data = [v0, v1, c])
    (hfit : Admits s.params s.data) :
    exec .fieldCheck s = .next (s.answered s.acc 0x00 [matchByte c (crc8 [v0, v1]), crc8 [v0, v1]]) := by
  have hlen : ∀ n, fixedDataLen .fieldCheck = some n → s.data.length = n := by
    rintro _ ⟨⟩
    rw [hdata]
    rfl
  rw [exec_of_fits hfit hlen, hdata]
  rfl

theorem matchByte_of_eq {stored computed : Byte} (h : computed = stored) : matchByte stored computed = 0x01 := if_pos h

theorem matchByte_of_ne {stored computed : Byte} (h : computed ≠ stored) : matchByte stored computed = 0x00 := if_neg h

/-- Settles O24: without data the rule of R56 is reached, with data it is not. -/
theorem crcInitResult : Obligations.CrcInitResult :=
  ⟨encode_toNat .crcInit, fun _ => ⟨exec_of_noData rfl, exec_of_unwantedData rfl⟩⟩

/-- Settles O25: without data the rule of R57 is reached, with data it is not. -/
theorem crcUpdateResult : Obligations.CrcUpdateResult := fun b =>
  ⟨encode_toNat (.crcUpdate b), fun _ => ⟨exec_of_noData rfl, exec_of_unwantedData rfl⟩⟩

/-- Settles O26: without data the rule of R58 is reached, with data it is not. -/
theorem crcReadResult : Obligations.CrcReadResult :=
  ⟨encode_toNat .crcRead, fun _ => ⟨exec_of_noData rfl, exec_of_unwantedData rfl⟩⟩

/-- Settles O27: CRC_SEQ has no fixed length, so every admitted operand reaches its rule. -/
theorem crcSeqResult : Obligations.CrcSeqResult :=
  ⟨encode_toNat .crcSeq, fun s =>
    ⟨fun hfit => exec_of_fits hfit nofun, oversizeDataIsIllegalEverywhere .crcSeq s⟩⟩

/-- Settles O28: a group reaches the rule, and what is no admitted group fails the data-operand check. -/
theorem fieldCheckResult : Obligations.FieldCheckResult := by
  refine ⟨encode_toNat .fieldCheck, fun s => ⟨fun v0 v1 c hdata hfit => ⟨fun hmatch => ?_, fun hmiss => ?_⟩, ?_⟩⟩
  · rw [exec_fieldCheck_of_group hdata hfit, matchByte_of_eq hmatch]
  · rw [exec_fieldCheck_of_group hdata hfit, matchByte_of_ne hmiss]
  · rintro (hlen | hover)
    · exact exec_of_malformed (dataMalformed_of_length_ne rfl hlen)
    · exact oversizeDataIsIllegalEverywhere .fieldCheck s hover

/-! ### What FIELD_CHECK sees of an error in a group -/

/-- The difference that the error bits `e` of a group make between its computed and its stored checksum. -/
def syndrome (e : BitVec 24) : Byte :=
  crc8Step (crc8Step 0 (e.extractLsb' 16 8)) (e.extractLsb' 8 8) ^^^ e.extractLsb' 0 8

theorem syndrome_append (e0 e1 e2 : Byte) : syndrome (e0 ++ e1 ++ e2) = crc8Step (crc8Step 0 e0) e1 ^^^ e2 := by
  have h0 : (e0 ++ e1 ++ e2).extractLsb' 16 8 = e0 := by ext; simp; grind
  have h1 : (e0 ++ e1 ++ e2).extractLsb' 8 8 = e1 := by ext; simp; grind
  have h2 : (e0 ++ e1 ++ e2).extractLsb' 0 8 = e2 := by ext; simp; grind
  rw [syndrome, h0, h1, h2]

theorem syndrome_xor (e f : BitVec 24) : syndrome (e ^^^ f) = syndrome e ^^^ syndrome f := by
  simp only [syndrome, BitVec.extractLsb'_xor, crc8Step_xor_right 0 (e.extractLsb' 16 8), crc8Step_xor]
  ac_rfl

/-- Error bits in the two value bytes change the checksum by an amount that does not depend on the bytes. -/
theorem crc8_pair_xor (v0 v1 e0 e1 : Byte) :
    crc8 [v0 ^^^ e0, v1 ^^^ e1] = crc8 [v0, v1] ^^^ crc8Step (crc8Step 0 e0) e1 := by
  simp only [crc8, List.foldl_cons, List.foldl_nil, crc8Step_xor_right init, crc8Step_xor]

theorem crcRounds_add (m n : Nat) (x : Byte) : crcRounds m (crcRounds n x) = crcRounds (m + n) x := by
  simp only [crcRounds_eq_iterate, Function.iterate_add_apply]

/-- A bit of a group, by the byte it is in: up to seven rounds move bit 0 within its byte. -/
theorem bit_eq_append : ∀ j < 8,
    1#24 <<< j = 0#8 ++ 0#8 ++ crcRounds j 1 ∧
    1#24 <<< (8 + j) = 0#8 ++ crcRounds j 1 ++ 0#8 ∧
    1#24 <<< (16 + j) = crcRounds j 1 ++ 0#8 ++ 0#8 := by
  decide

/-- Bit `i` of a group stands for the power `i` of the polynomial's variable. -/
theorem syndrome_bit {i : Nat} (hi : i < 24) : syndrome (1#24 <<< i) = crcRounds i 1 := by
  obtain ⟨hlow, hmid, hhigh⟩ := bit_eq_append (i % 8) (Nat.mod_lt _ (by decide))
  have hbyte : i = i % 8 ∨ i = 8 + i % 8 ∨ i = 16 + i % 8 := by omega
  rcases hbyte with h | h | h
  · rw [h, hlow, syndrome_append]
    simp [crc8Step]
  · rw [h, hmid, syndrome_append]
    simp [crc8Step, crcRounds_add]
  · rw [h, hhigh, syndrome_append]
    simp [crc8Step, crcRounds_add, ← Nat.add_assoc]

/-- Of the powers of the polynomial's variable below 24, only the zeroth is 1. -/
theorem crcRounds_one_ne_one : ∀ d < 24, 0 < d → crcRounds d 1 ≠ 1 := by
  decide

/-- The 24 bits of a group have distinct syndromes. -/
theorem crcRounds_one_ne {i j : Nat} (hij : i < j) (hj : j < 24) : crcRounds i 1 ≠ crcRounds j 1 := by
  intro h
  have hsplit : crcRounds j 1 = crcRounds i (crcRounds (j - i) 1) := by
    rw [crcRounds_add, Nat.add_sub_cancel' hij.le]
  have hone : 1 = crcRounds (j - i) 1 := crcRounds_injective i (h.trans hsplit)
  exact crcRounds_one_ne_one (j - i) (by omega) (by omega) hone.symm

theorem bits_or_eq_xor {i j : Nat} (hij : i ≠ j) : (1#24 <<< i) ||| (1#24 <<< j) = (1#24 <<< i) ^^^ (1#24 <<< j) := by
  ext k hk
  simp
  grind

/-- One flipped bit, or two, have a syndrome that is not 0. -/
theorem syndrome_bits_ne_zero {i j : Nat} (hi : i < 24) (hj : j < 24) :
    syndrome ((1#24 <<< i) ||| (1#24 <<< j)) ≠ 0#8 := by
  by_cases hij : i = j
  · subst hij
    rw [BitVec.or_self, syndrome_bit hi, Ne, crcRounds_eq_zero_iff]
    decide
  · rw [bits_or_eq_xor hij, syndrome_xor, syndrome_bit hi, syndrome_bit hj, Ne, BitVec.xor_eq_zero_iff]
    rcases Nat.lt_or_gt_of_ne hij with hlt | hgt
    · exact crcRounds_one_ne hlt hj
    · exact (crcRounds_one_ne hgt hi).symm

/-- Settles O49: the error moves the computed checksum and the stored one by different amounts, as its syndrome is not 0. -/
theorem fieldCheckDetectsTwoBitErrors : Obligations.FieldCheckDetectsTwoBitErrors := by
  intro s v0 v1 c e0 e1 e2 i j hgood he hdata hfit
  have hne : crc8 [v0 ^^^ e0, v1 ^^^ e1] ≠ c ^^^ e2 := by
    rw [crc8_pair_xor, hgood, Ne, BitVec.xor_right_inj, ← BitVec.xor_eq_zero_iff, ← syndrome_append, he]
    exact syndrome_bits_ne_zero i.isLt j.isLt
  refine ⟨crc8 [v0 ^^^ e0, v1 ^^^ e1], ?_⟩
  rw [exec_fieldCheck_of_group hdata hfit, matchByte_of_ne hne, responseOf_answered]

/-! ### Streams of requests -/

/-- At an idle port whose accumulator is `acc`, the requests `reqs` are all answered, one step each, with the responses `new`;
the port is idle after them, and the accumulator is `acc'`. -/
def Serves (acc : Byte) (reqs : List Request) (acc' : Byte) (new : List Response) : Prop :=
  ∀ (s : State) (rest : List PortEvent), s.inputs = reqs.map .request ++ rest → s.busy = false → s.acc = acc →
    ∃ t, RunsTo reqs.length s t ∧ t.acc = acc' ∧ t.busy = false ∧ t.inputs = rest ∧ t.responses = s.responses ++ new

theorem serves_nil (acc : Byte) : Serves acc [] acc [] := fun s _ hin hidle hacc =>
  ⟨s, runsTo_zero s, hacc, hidle, hin, (List.append_nil _).symm⟩

theorem Serves.append {a b c : Byte} {xs ys : List Request} {new new' : List Response} (hxs : Serves a xs b new)
    (hys : Serves b ys c new') : Serves a (xs ++ ys) c (new ++ new') := by
  intro s rest hin hidle hacc
  rw [List.map_append, List.append_assoc] at hin
  obtain ⟨t, hrun, hacc, hidle, hin, hresp⟩ := hxs s _ hin hidle hacc
  obtain ⟨u, hrun', hacc, hidle, hin, hresp'⟩ := hys t rest hin hidle hacc
  refine ⟨u, ?_, hacc, hidle, hin, by rw [hresp', hresp, List.append_assoc]⟩
  rw [List.length_append]
  exact runsTo_add hrun hrun'

/-- One request without data is served as its operation answers. -/
theorem serves_singleton {i : Instr} {acc acc' v : Byte} {out : List Byte} (hwf : i.wellFormed = true)
    (hexec : ∀ s : State, s.acc = acc → s.data = [] → exec i s = .next (s.answered acc' v out)) :
    Serves acc [requestOf i []] acc' [⟨v, out⟩] := by
  intro s rest hin hidle hacc
  have hstep := stepRunsDecodedInstruction s (requestOf i []) rest i hin hidle (decodeWord_encode hwf)
  exact ⟨_, runsTo_succ (hstep.trans (hexec _ hacc rfl)) (runsTo_zero _), rfl, rfl, rfl, rfl⟩

theorem serves_crcInit (acc : Byte) : Serves acc [requestOf .crcInit []] init [⟨0x00, []⟩] :=
  serves_singleton rfl fun s _ hdata => (crcInitResult.right s).left hdata

theorem serves_crcUpdate (acc b : Byte) : Serves acc [requestOf (.crcUpdate b) []] (crc8Step acc b) [⟨0x00, []⟩] :=
  serves_singleton rfl fun s hacc hdata => hacc ▸ ((crcUpdateResult b).right s).left hdata

theorem serves_crcRead (acc : Byte) : Serves acc [requestOf .crcRead []] acc [⟨0x00, [acc]⟩] :=
  serves_singleton rfl fun s hacc hdata => hacc ▸ (crcReadResult.right s).left hdata

/-- One CRC_UPDATE per byte folds the step over the bytes. -/
theorem serves_crcUpdates (acc : Byte) (bytes : List Byte) :
    Serves acc (bytes.map fun b => requestOf (.crcUpdate b) []) (bytes.foldl crc8Step acc)
      (List.replicate bytes.length ⟨0x00, []⟩) := by
  induction bytes generalizing acc with
  | nil => exact serves_nil acc
  | cons b bytes ih => exact (serves_crcUpdate acc b).append (ih _)

/-- CRC_BYTES: whatever the accumulator was, the checksum of the bytes is read in the end and left there. -/
theorem serves_crcBytes (acc : Byte) (bytes : List Byte) :
    Serves acc (crcBytes bytes) (crc8 bytes) (List.replicate (bytes.length + 1) ⟨0x00, []⟩ ++ [⟨0x00, [crc8 bytes]⟩]) :=
  (serves_crcInit acc).append ((serves_crcUpdates init bytes).append (serves_crcRead _))

theorem length_crcBytes (bytes : List Byte) : (crcBytes bytes).length = bytes.length + 2 := by
  simp [crcBytes]

/-- Settles O50: the port holds the requests of CRC_BYTES, and these are served. -/
theorem streamingEqualsPure : Obligations.StreamingEqualsPure := by
  intro bytes s rest hin hidle
  have h := serves_crcBytes s.acc bytes s rest hin hidle rfl
  rwa [length_crcBytes, ← List.append_assoc] at h

end Sys2Proof.Machine

namespace Sys2Proof.Machine

/-! ### The framer -/

theorem frameGroups_of_length_eq {data : List Byte} {n : Nat} (h : data.length = 3 * n) :
    frameGroups data n = some (groupsOf data) := if_pos h

theorem frameGroups_of_length_ne {data : List Byte} {n : Nat} (h : data.length ≠ 3 * n) : frameGroups data n = none :=
  if_neg h

/-- On the right length the groups, written out, are the buffer again (41_framer.md R64); their checksums are not looked at. -/
theorem ruleFrame_of_length_eq {n : Byte} {data : List Byte} (h : data.length = 3 * n.toNat) (p : Params) (b : Block) :
    ruleFrame n p data b = respond success data b := by
  simp only [ruleFrame, frameGroups_of_length_eq h, flatMap_bytes_groupsOf data _ h]

theorem ruleFrame_of_length_ne {n : Byte} {data : List Byte} (h : data.length ≠ 3 * n.toNat) (p : Params) (b : Block) :
    ruleFrame n p data b = raiseError .framing b := by
  simp only [ruleFrame, frameGroups_of_length_ne h]

/-- FRAME has no fixed length, so every admitted operand reaches its rule. -/
theorem exec_frame_of_admits {s : State} (n : Byte) (hfit : Admits s.params s.data) :
    exec (.frame n) s = .next (deliver (ruleFrame n s.params s.data s.toBlock) s) := exec_of_fits hfit nofun

/-- Settles O30: an admitted operand reaches the rule, which asks for its length alone. -/
theorem frameResult : Obligations.FrameResult := by
  refine fun n => ⟨encode_toNat (.frame n), fun s => ⟨fun hlen hfit => ?_, fun hlen hfit => ?_, ?_⟩⟩
  · rw [exec_frame_of_admits n hfit, ruleFrame_of_length_eq hlen]
    rfl
  · rw [exec_frame_of_admits n hfit, ruleFrame_of_length_ne hlen]
    rfl
  · exact oversizeDataIsIllegalEverywhere (.frame n) s

/-- Settles O31: by R64 the response is the buffer on the length `3n` and FramingError on any other. -/
theorem framingConditionIsExact : Obligations.FramingConditionIsExact := by
  intro n s hfit
  obtain ⟨-, hframe⟩ := frameResult n
  obtain ⟨hright, hwrong, -⟩ := hframe s
  have hanswer (hlen : s.data.length ≠ 3 * n.toNat) : responseOf (exec (.frame n) s) = some ⟨0x20, []⟩ := by
    rw [hwrong hlen hfit, responseOf_answered]
  refine ⟨⟨fun ⟨out, hout⟩ => ?_, fun hlen => ⟨s.data, ?_⟩⟩, hanswer⟩
  · by_contra hlen
    simp [hanswer hlen] at hout
  · rw [hright hlen hfit, responseOf_answered]

/-- Settles O32: the buffer holds the three bytes of group `g`, and the group is cut out of them. -/
theorem frameGroupsByIndex : Obligations.FrameGroupsByIndex := by
  refine fun data n => ⟨frameGroups_of_length_ne, fun hlen =>
    ⟨groupsOf data, frameGroups_of_length_eq hlen, length_groupsOf data n hlen, fun g hg => ?_⟩⟩
  have hbyte {j : Nat} (hj : j < 3 * n) : ∃ v, data[j]? = some v := ⟨_, List.getElem?_eq_getElem (hlen ▸ hj)⟩
  obtain ⟨v0, h0⟩ := hbyte (j := 3 * g) (by omega)
  obtain ⟨v1, h1⟩ := hbyte (j := 3 * g + 1) (by omega)
  obtain ⟨c, h2⟩ := hbyte (j := 3 * g + 2) (by omega)
  exact ⟨v0, v1, c, _, h0, h1, h2, groupsOf_getElem? data g v0 v1 c h0 h1 h2, be16_toNat v0 v1, rfl⟩

end Sys2Proof.Machine

namespace Sys2Proof.Machine

/-! ### The results of the scaler's operations -/

/-- A rule that turns its operand away answers IllegalOperation, as the data-operand check before it does. -/
theorem exec_of_rule_illegal {i : Instr} {s : State}
    (h : ruleOf i s.params s.data s.toBlock = raiseError .illegalOperation s.toBlock) :
    exec i s = .next (s.answered s.acc 0x30 []) := by
  cases hbad : dataMalformed i s.params s.data with
  | true => exact exec_of_malformed hbad
  | false =>
    obtain ⟨hfit, hlen⟩ := (dataMalformed_eq_false_iff ..).1 hbad
    rw [exec_of_fits hfit hlen, h]
    rfl

theorem ruleDesc_of_some {k : FieldIndex} {d : Descriptor} (h : descOf k = some d) (p : Params) (data : List Byte)
    (b : Block) : ruleDesc k p data b = respond success d.bytes b := by
  simp only [ruleDesc, h]

theorem ruleDesc_of_none {k : FieldIndex} (h : descOf k = none) (p : Params) (data : List Byte) (b : Block) :
    ruleDesc k p data b = raiseError .illegalOperation b := by
  simp only [ruleDesc, h]

theorem ruleScale_of_some {k : FieldIndex} {d : Descriptor} (h : descOf k = some d) (p : Params) (hi lo : Byte)
    (b : Block) : ruleScale k p [hi, lo] b = respond success (encRat (scaleBy d (be16 hi lo))) b := by
  simp only [ruleScale, h]

theorem ruleScale_of_none {k : FieldIndex} (h : descOf k = none) (p : Params) (data : List Byte) (b : Block) :
    ruleScale k p data b = raiseError .illegalOperation b := by
  simp only [ruleScale, h]

/-- The table's bytes, field by field (10_state.md R20). -/
theorem bytes_of_descOf : ∀ k : FieldIndex, ∀ d ∈ descOf k, d.bytes =
    if k.toNat ≤ 3 then [0x00, 0x0A, 0x00] else if k.toNat = 4 then [0x01, 0x64, 0x01]
      else if k.toNat = 5 then [0x01, 0xC8, 0x02] else [0x01, 0x0A, 0x03] := by decide

/-- Settles O33: without data the rule reads the table's entry; for a field with no entry it is IllegalOperation. -/
theorem descResult : Obligations.DescResult := by
  refine fun k => ⟨encode_toNat (.desc k), fun s => ⟨fun hdata hk => ?_, ?_⟩⟩
  · obtain ⟨d, hd⟩ := descOf_exists hk
    rw [exec_of_noData rfl hdata, ruleOf, ruleDesc_of_some hd, bytes_of_descOf k d hd]
    rfl
  · rintro (hk | hdata)
    · exact exec_of_rule_illegal (ruleDesc_of_none (descOf_none hk) s.params s.data s.toBlock)
    · exact exec_of_unwantedData rfl hdata

/-- An admitted operand of the operation's fixed length reaches its rule. -/
theorem exec_of_fixedDataLen {i : Instr} {n : Nat} {s : State} (hi : fixedDataLen i = some n) (hlen : s.data.length = n)
    (hfit : Admits s.params s.data) : exec i s = .next (deliver (ruleOf i s.params s.data s.toBlock) s) :=
  exec_of_fits hfit fun _ hm => hlen.trans (Option.some.inj (hi.symm.trans hm))

theorem exec_scale_of_word {s : State} {k : FieldIndex} {d : Descriptor} {hi lo : Byte} (hd : descOf k = some d)
    (hdata : s.data = [hi, lo]) (hfit : Admits s.params s.data) :
    exec (.scale k) s = .next (s.answered s.acc 0x00 (encRat (scaleBy d (be16 hi lo)))) := by
  rw [exec_of_fixedDataLen rfl (congrArg List.length hdata) hfit, hdata, ruleOf, ruleScale_of_some hd]
  rfl

/-- Settles O34: a word of a field of the table is scaled and encoded; a field with no entry fails in the rule, and another
operand before it. -/
theorem scaleResult : Obligations.ScaleResult := by
  refine fun k => ⟨encode_toNat (.scale k), fun s => ⟨fun hi lo hdata hfit hk => ?_, ?_⟩⟩
  · obtain ⟨d, hd⟩ := descOf_exists hk
    obtain ⟨-, hden, -⟩ := descOf_some hd
    refine ⟨_, exec_scale_of_word hd hdata hfit, ?_⟩
    rw [encRat_toNat, scaleBy_num hd, be16_toNat, ← hden]
    rfl
  · rintro (hk | hlen | hover)
    · exact exec_of_rule_illegal (ruleScale_of_none (descOf_none hk) s.params s.data s.toBlock)
    · exact exec_of_malformed (dataMalformed_of_length_ne rfl hlen)
    · exact oversizeDataIsIllegalEverywhere (.scale k) s hover

/-! ### The physical values -/

theorem fieldNum_unsigned {k : Nat} (hk : k ≤ 3) (v : Word) : fieldNum k v.toNat = v.toNat := if_pos hk

theorem fieldNum_signed {k : Nat} (hk : 4 ≤ k) (v : Word) : fieldNum k v.toNat = v.toInt := by
  rw [fieldNum, if_neg (Nat.not_le.2 hk), ← sext16_eq, sext16_eq_toInt]

theorem fieldNum_mem_range (k : Nat) (v : Word) : -32768 ≤ fieldNum k v.toNat ∧ fieldNum k v.toNat ≤ 65535 := by
  have := v.isLt
  unfold fieldNum
  split
  · omega
  · split <;> omega

theorem fieldDen_unsigned {k : Nat} (hk : k ≤ 3) : fieldDen k = 10 := by
  rw [fieldDen, if_neg (by omega), if_neg (by omega)]

theorem fieldDen_cases (k : Nat) : fieldDen k = 10 ∨ fieldDen k = 100 ∨ fieldDen k = 200 := by
  unfold fieldDen
  split
  · exact .inr (.inl rfl)
  · split
    · exact .inr (.inr rfl)
    · exact .inl rfl

theorem fieldDen_pos (k : Nat) : (0 : Rat) < fieldDen k := by
  obtain h | h | h := fieldDen_cases k <;> norm_num [h]

section
variable {k : FieldIndex} {d : Descriptor} (h : descOf k = some d) (v w : Word)
include h

theorem scaleBy_value : (scaleBy d v).value = (fieldNum k.toNat v.toNat : Rat) / fieldDen k.toNat := by
  obtain ⟨-, hden, -⟩ := descOf_some h
  rw [Scaled.value, scaleBy_num h, ← hden]
  rfl

/-- The divisor is positive, so a value has its numerator's sign (42_scaler.md R75). -/
theorem scaleBy_value_neg_iff : (scaleBy d v).value < 0 ↔ fieldNum k.toNat v.toNat < 0 := by
  rw [scaleBy_value h, div_lt_iff₀ (fieldDen_pos _), zero_mul]
  exact Int.cast_lt_zero

/-- Values of one field have one divisor, so they are ordered as their numerators are (42_scaler.md R75). -/
theorem scaleBy_value_lt_iff :
    (scaleBy d v).value < (scaleBy d w).value ↔ fieldNum k.toNat v.toNat < fieldNum k.toNat w.toNat := by
  rw [scaleBy_value h, scaleBy_value h, div_lt_div_iff_of_pos_right (fieldDen_pos _)]
  exact Int.cast_lt

end

theorem scaleBy_value_unsigned {k : FieldIndex} {d : Descriptor} (h : descOf k = some d) (hk : k.toNat ≤ 3) (v : Word) :
    (scaleBy d v).value = (v.toNat : Rat) / 10 := by
  rw [scaleBy_value h, fieldNum_unsigned hk, fieldDen_unsigned hk]
  rfl

theorem scaleBy_value_signed {k : FieldIndex} {d : Descriptor} (h : descOf k = some d) (hk : 4 ≤ k.toNat) (v : Word) :
    (scaleBy d v).value = (v.toInt : Rat) / fieldDen k.toNat := by
  rw [scaleBy_value h, fieldNum_signed hk]

/-- Settles O35: each field's numerator over its divisor. -/
theorem physicalValues : Obligations.PhysicalValues := by
  refine fun v => ⟨fun k hk => ?_, ?_, ?_, ?_⟩
  · obtain ⟨d, hd⟩ := descOf_exists (k := k) (by omega)
    have hv : (v.toNat : Rat) ≤ 65535 := by exact_mod_cast Nat.le_of_lt_succ v.isLt
    refine ⟨d, hd, ?_⟩
    rw [scaleBy_value_unsigned hd hk]
    exact ⟨rfl, by positivity, by gcongr⟩
  · exact ⟨_, rfl, scaleBy_value_signed (k := 4) rfl (by decide) v⟩
  · exact ⟨_, rfl, scaleBy_value_signed (k := 5) rfl (by decide) v⟩
  · exact ⟨_, rfl, scaleBy_value_signed (k := 6) rfl (by decide) v⟩

/-- Settles O36: an unsigned numerator is never negative, and a two's-complement one exactly from 32768 on. -/
theorem negativeExactlyBySignBit : Obligations.NegativeExactlyBySignBit := by
  intro k d v hd
  have hv := v.isLt
  rw [scaleBy_value_neg_iff hd, fieldNum]
  split
  · omega
  · split <;> omega

/-- Settles O37: a field's values are ordered as their numerators, which are the raw words as the field reads them. -/
theorem scalingIsStrictlyMonotone : Obligations.ScalingIsStrictlyMonotone := by
  refine fun k d v w hd => ⟨fun hk => ?_, fun hk => ?_⟩
  · rw [scaleBy_value_lt_iff hd, fieldNum_unsigned hk, fieldNum_unsigned hk, Int.ofNat_lt]
  · rw [scaleBy_value_lt_iff hd, fieldNum_signed hk, fieldNum_signed hk]

/-! ### The encoding of a scaled value -/

/-- The four bytes give the numerator modulo 2^32, which in the block's range gives the numerator. -/
theorem encRatNat_inj {m n : Int} {d e : Nat} (hm : -32768 ≤ m ∧ m ≤ 65535) (hn : -32768 ≤ n ∧ n ≤ 65535)
    (h : encRatNat m d = encRatNat n e) : m = n ∧ d = e := by
  simp only [encRatNat, List.cons.injEq, and_true] at h
  omega

/-- Settles O38: the numerator's and the divisor's ranges are those of R67 and R20, and the encoding's numbers determine
both. -/
theorem encRatDecodesUniquely : Obligations.EncRatDecodesUniquely := by
  refine ⟨fun k d v hd => ?_, fun x y hxlo hxhi hylo hyhi henc => ?_⟩
  · obtain ⟨-, hden, -⟩ := descOf_some hd
    obtain ⟨hlo, hhi⟩ := fieldNum_mem_range k.toNat v
    rw [scaleBy_num hd]
    refine ⟨hlo, hhi, ?_⟩
    simpa only [← hden, BitVec.toNat_eq, BitVec.reduceToNat] using fieldDen_cases k.toNat
  · obtain ⟨xnum, xden⟩ := x
    obtain ⟨ynum, yden⟩ := y
    have hnat : encRatNat xnum xden.toNat = encRatNat ynum yden.toNat := by
      simpa only [encRat_toNat] using congrArg (List.map BitVec.toNat) henc
    obtain ⟨rfl, hden⟩ := encRatNat_inj ⟨hxlo, hxhi⟩ ⟨hylo, hyhi⟩ hnat
    rw [BitVec.eq_of_toNat_eq hden]

end Sys2Proof.Machine

namespace Sys2Proof.Machine

/-! ### The groups of a measurement buffer -/

/-- The bytes of group `g` of a buffer (41_framer.md R63). -/
structure GroupAt (data : List Byte) (g : Nat) (v0 v1 c : Byte) : Prop where
  first : data[3 * g]? = some v0
  second : data[3 * g + 1]? = some v1
  third : data[3 * g + 2]? = some c

theorem exists_groupAt {data : List Byte} {n g : Nat} (hlen : data.length = 3 * n) (hg : g < n) :
    ∃ v0 v1 c, GroupAt data g v0 v1 c := by
  obtain ⟨-, hgroups⟩ := frameGroupsByIndex data n
  obtain ⟨_, -, -, hbytes⟩ := hgroups hlen
  obtain ⟨v0, v1, c, _, h0, h1, h2, -⟩ := hbytes g hg
  exact ⟨v0, v1, c, h0, h1, h2⟩

section
variable {data : List Byte} {g : Nat} {v0 v1 c : Byte} (h : GroupAt data g v0 v1 c)
include h

theorem GroupAt.groupsOf_eq : (groupsOf data)[g]? = some ⟨be16 v0 v1, c⟩ :=
  groupsOf_getElem? data g v0 v1 c h.first h.second h.third

theorem GroupAt.groupMatches_iff : GroupMatches data g ↔ crc8 [v0, v1] = c := by
  refine ⟨fun ⟨w0, w1, d, h0, h1, h2, hcrc⟩ => ?_, fun hcrc => ⟨v0, v1, c, h.first, h.second, h.third, hcrc⟩⟩
  cases h.first.symm.trans h0
  cases h.second.symm.trans h1
  cases h.third.symm.trans h2
  exact hcrc

theorem GroupAt.take_three : (data.drop (3 * g)).take 3 = [v0, v1, c] := by
  rw [List.drop_eq_getElem?_toList_append, h.first, List.drop_eq_getElem?_toList_append, h.second,
    List.drop_eq_getElem?_toList_append, h.third]
  rfl

theorem GroupAt.take_two : (data.drop (3 * g)).take 2 = [v0, v1] := by
  have h2 := congrArg (List.take 2) h.take_three
  rwa [List.take_take] at h2

end

/-- The decoder's test of a group is the spec's (43_decoder.md R76). -/
theorem groupBad_groupsOf_iff {data : List Byte} {n g : Nat} (hlen : data.length = 3 * n)
    (hg : g < (groupsOf data).length) : groupBad (groupsOf data)[g] = true ↔ ¬ GroupMatches data g := by
  obtain ⟨v0, v1, c, h⟩ := exists_groupAt hlen (length_groupsOf data n hlen ▸ hg)
  rw [h.groupMatches_iff, (List.getElem?_eq_some_iff.1 h.groupsOf_eq).2]
  simp [groupBad]

/-- The groups of whole groups followed by other bytes. -/
theorem groupsOf_append (tail : List Byte) : ∀ (buf : List Byte) (n : Nat), buf.length = 3 * n →
    groupsOf (buf ++ tail) = groupsOf buf ++ groupsOf tail
  | [], _, _ => rfl
  | [_], _, h => by simp at h; omega
  | [_, _], _, h => by simp at h; omega
  | v0 :: v1 :: c :: rest, n, h => by
    have ih := groupsOf_append tail rest (n - 1) (by simp at h; omega)
    simp [groupsOf, ih]

/-! ### The first checked group that does not match (43_decoder.md R78) -/

theorem checkedGroups_eq (p : Params) : checkedGroups p = lastChecked p + 1 := by
  unfold checkedGroups lastChecked
  split <;> rfl

theorem lastChecked_le (p : Params) : lastChecked p ≤ 7 := by
  unfold lastChecked
  split <;> decide

section
variable {data : List Byte} (hlen : data.length = 24) (p : Params)
include hlen

theorem length_checked : ((groupsOf data).take (checkedGroups p)).length = lastChecked p + 1 := by
  have := lastChecked_le p
  rw [List.length_take, length_groupsOf data 8 hlen, checkedGroups_eq]
  omega

theorem firstBadGroup_eq_some_iff {g : Nat} : firstBadGroup p (groupsOf data) = some g ↔
    g ≤ lastChecked p ∧ ¬ GroupMatches data g ∧ ∀ j, j < g → GroupMatches data j := by
  rw [firstBadGroup, List.findIdx?_eq_some_iff_getElem]
  simp only [length_checked hlen, List.getElem_take, groupBad_groupsOf_iff (n := 8) hlen, not_not, exists_prop,
    Nat.lt_succ_iff]

theorem firstBadGroup_eq_none_iff :
    firstBadGroup p (groupsOf data) = none ↔ ∀ g, g ≤ lastChecked p → GroupMatches data g := by
  rw [firstBadGroup, List.findIdx?_eq_none_iff, List.forall_mem_iff_getElem]
  simp only [length_checked hlen, List.getElem_take, ← Bool.not_eq_true, groupBad_groupsOf_iff (n := 8) hlen, not_not,
    Nat.lt_succ_iff]

end

/-! ### The output of a successful DECODE -/

/-- Of lists of `n` elements written one after the other, the one of element `k` stands at `n * k`. -/
theorem take_drop_flatMap {α β : Type} {f : α → List β} {n : Nat} (hf : ∀ a, (f a).length = n) {l : List α} {k : Nat}
    {a : α} (h : l[k]? = some a) : ((l.flatMap f).drop (n * k)).take n = f a := by
  induction l generalizing k with
  | nil => cases h
  | cons b l ih =>
    cases k with
    | zero =>
      cases h
      exact List.take_left' (hf a)
    | succ k =>
      rw [List.flatMap_cons, Nat.mul_succ, Nat.add_comm, ← List.drop_drop, List.drop_left' (hf b)]
      exact ih h

@[simp] theorem length_encRat (x : Scaled) : (encRat x).length = 5 := rfl

theorem length_readingBytes {data : List Byte} (hlen : data.length = 24) : (readingBytes (groupsOf data)).length = 35 := by
  have hgroups : (groupsOf data).length = 8 := length_groupsOf data 8 hlen
  have hdesc : descTable.length = 7 := rfl
  simp [readingBytes, List.length_flatMap, hdesc, hgroups]

/-- Field `k` of the output, at bytes `5k` to `5k+4`, is the scaled value of group `k` (43_decoder.md R80). -/
theorem readingBytes_field {data : List Byte} {k : FieldIndex} {d : Descriptor} {v0 v1 c : Byte}
    (hd : descOf k = some d) (hg : GroupAt data k.toNat v0 v1 c) :
    ((readingBytes (groupsOf data)).drop (5 * k.toNat)).take 5 = encRat (scaleBy d (be16 v0 v1)) := by
  have hpair : (descTable.zip (groupsOf data))[k.toNat]? = some (d, ⟨be16 v0 v1, c⟩) :=
    List.getElem?_zip_eq_some.2 ⟨hd, hg.groupsOf_eq⟩
  rw [readingBytes, take_drop_flatMap (fun _ => length_encRat _) hpair]

/-- The encoding of a scaled word, in numbers. -/
theorem encRat_scaleBy_toNat {k : FieldIndex} {d : Descriptor} (hd : descOf k = some d) (hi lo : Byte) :
    (encRat (scaleBy d (be16 hi lo))).map BitVec.toNat =
      encRatNat (fieldNum k.toNat (rawWord hi lo)) (fieldDen k.toNat) := by
  obtain ⟨-, hden, -⟩ := descOf_some hd
  rw [encRat_toNat, scaleBy_num hd, be16_toNat, ← hden]
  rfl

/-- 35 bytes are their seven pieces of 5. -/
theorem eq_append_fields {out : List Byte} (h : out.length = 35) :
    out = (out.drop (5 * 0)).take 5 ++ (out.drop (5 * 1)).take 5 ++ (out.drop (5 * 2)).take 5 ++
      (out.drop (5 * 3)).take 5 ++ (out.drop (5 * 4)).take 5 ++ (out.drop (5 * 5)).take 5 ++
      (out.drop (5 * 6)).take 5 := by
  calc out = out.take (5 + 5 + 5 + 5 + 5 + 5 + 5) := (List.take_of_length_le h.le).symm
    _ = _ := by rw [List.take_add, List.take_add, List.take_add, List.take_add, List.take_add, List.take_add]; rfl

/-- Only the first seven groups are written out. -/
theorem readingBytes_append {groups : List Group} (h : groups.length = 7) (rest : List Group) :
    readingBytes (groups ++ rest) = readingBytes groups := by
  have hzip : (descTable ++ []).zip (groups ++ rest) = descTable.zip groups ++ [].zip rest := List.zip_append h.symm
  rw [List.append_nil, List.zip_nil_left, List.append_nil] at hzip
  rw [readingBytes, hzip, readingBytes]

/-! ### DECODE -/

theorem ruleDecode_of_length_ne {data : List Byte} (h : data.length ≠ 24) (p : Params) (b : Block) :
    ruleDecode p data b = raiseError .framing b := if_pos h

theorem ruleDecode_of_some {data : List Byte} {p : Params} {g : Nat} (hlen : data.length = 24)
    (h : firstBadGroup p (groupsOf data) = some g) (b : Block) :
    ruleDecode p data b = raiseError (.checksum (BitVec.ofNat 4 g)) b := by
  have hgroups : frameGroups data measureGroups = some (groupsOf data) := frameGroups_of_length_eq hlen
  simp only [ruleDecode, measureLen, hlen, ne_eq, not_true_eq_false, if_false, hgroups, h]

theorem ruleDecode_of_none {data : List Byte} {p : Params} (hlen : data.length = 24)
    (h : firstBadGroup p (groupsOf data) = none) (b : Block) :
    ruleDecode p data b = respond success (readingBytes (groupsOf data)) b := by
  have hgroups : frameGroups data measureGroups = some (groupsOf data) := frameGroups_of_length_eq hlen
  simp only [ruleDecode, measureLen, hlen, ne_eq, not_true_eq_false, if_false, hgroups, h]

/-- DECODE has no fixed length in the table, so every admitted operand reaches its rule. -/
theorem exec_decode_of_admits {s : State} (hfit : Admits s.params s.data) :
    exec .decode s = .next (deliver (ruleDecode s.params s.data s.toBlock) s) := exec_of_fits hfit nofun

section
variable {s : State} (hlen : s.data.length = 24) (hfit : Admits s.params s.data)
include hlen hfit

theorem exec_decode_of_some {g : Nat} (h : firstBadGroup s.params (groupsOf s.data) = some g) :
    exec .decode s = .next (s.answered s.acc (errorStatus (.checksum (BitVec.ofNat 4 g))) []) := by
  rw [exec_decode_of_admits hfit, ruleDecode_of_some hlen h]
  rfl

theorem exec_decode_of_none (h : firstBadGroup s.params (groupsOf s.data) = none) :
    exec .decode s = .next (s.answered s.acc 0x00 (readingBytes (groupsOf s.data))) := by
  rw [exec_decode_of_admits hfit, ruleDecode_of_none hlen h]
  rfl

theorem responseOf_exec_decode_eq_success_iff {out : List Byte} : responseOf (exec .decode s) = some ⟨0x00, out⟩ ↔
    firstBadGroup s.params (groupsOf s.data) = none ∧ out = readingBytes (groupsOf s.data) := by
  cases h : firstBadGroup s.params (groupsOf s.data) with
  | none => simp [exec_decode_of_none hlen hfit h, eq_comm]
  | some g =>
    have hstatus : ∀ g : BitVec 4, errorStatus (.checksum g) ≠ 0x00 := by decide
    simp only [exec_decode_of_some hlen hfit h, responseOf_answered, Option.some.injEq, Response.mk.injEq, hstatus,
      false_and, reduceCtorEq]

end

/-- What DECODE responds to an operand; `exec_decode_eq_answered` says that it does, from any state. -/
def decodeResponse (p : Params) (data : List Byte) : Response := (answer .decode ruleDecode p data Block.reset).response

/-- DECODE reads its arguments alone, and keeps `ACC` whatever it responds (43_decoder.md R81). -/
theorem exec_decode_eq_answered (s : State) : exec .decode s =
    .next (s.answered s.acc (decodeResponse s.params s.data).status (decodeResponse s.params s.data).out) := by
  have hans := answerOf_answer .decode s.params s.data s.toBlock
  have halike := accIgnored_answer (i := .decode) nofun nofun s.params s.data s.toBlock Block.reset
  have hacc : (answer .decode (ruleOf .decode) s.params s.data s.toBlock).block.acc = s.acc := by
    by_contra h
    simpa using hans.accKept h
  rw [exec_eq_serve, serve, deliver_eq_answered hans.idle, hacc, halike.response]
  rfl

/-- The data-operand check reads the operand's length alone (30_encoding.md R45). -/
theorem dataMalformed_congr (i : Instr) (p : Params) {xs ys : List Byte} (h : xs.length = ys.length) :
    dataMalformed i p xs = dataMalformed i p ys := by
  unfold dataMalformed exceedsMax
  rw [h]

section
variable {p : Params} (hunchecked : p.checkTrailing = false) {buf tail tail' : List Byte} (hbuf : buf.length = 21)
include hunchecked hbuf

/-- Without `P_CHECK_TRAILING` the groups after the seventh are not checked (43_decoder.md R79). -/
theorem firstBadGroup_append (tail : List Byte) :
    firstBadGroup p (groupsOf (buf ++ tail)) = firstBadGroup p (groupsOf buf) := by
  have hseven := length_groupsOf buf 7 hbuf
  have hchecked : checkedGroups p = 7 := by rw [checkedGroups, hunchecked]; rfl
  rw [firstBadGroup, firstBadGroup, hchecked, groupsOf_append tail buf 7 hbuf, List.take_left' hseven,
    List.take_of_length_le hseven.le]

variable (htail : tail.length = 3) (htail' : tail'.length = 3)
include htail htail'

/-- Seven groups checked and seven written out: the bytes after them have no part in the answer. -/
theorem ruleDecode_append (b : Block) : ruleDecode p (buf ++ tail) b = ruleDecode p (buf ++ tail') b := by
  have hlen : (buf ++ tail).length = 24 := by rw [List.length_append, hbuf, htail]
  have hlen' : (buf ++ tail').length = 24 := by rw [List.length_append, hbuf, htail']
  have hseven := length_groupsOf buf 7 hbuf
  have hbad := firstBadGroup_append hunchecked hbuf
  cases h : firstBadGroup p (groupsOf buf) with
  | some g => rw [ruleDecode_of_some hlen ((hbad tail).trans h), ruleDecode_of_some hlen' ((hbad tail').trans h)]
  | none =>
    rw [ruleDecode_of_none hlen ((hbad tail).trans h), ruleDecode_of_none hlen' ((hbad tail').trans h),
      groupsOf_append tail buf 7 hbuf, groupsOf_append tail' buf 7 hbuf, readingBytes_append hseven,
      readingBytes_append hseven]

theorem decodeResponse_append : decodeResponse p (buf ++ tail) = decodeResponse p (buf ++ tail') := by
  have hlen : (buf ++ tail).length = (buf ++ tail').length := by simp [htail, htail']
  rw [decodeResponse, decodeResponse, answer, answer, dataMalformed_congr .decode p hlen,
    ruleDecode_append hunchecked hbuf htail htail']

end

/-! ### The results of DECODE -/

/-- Settles O41: an admitted operand reaches the rule, which asks for the length first. -/
theorem decodeWrongLength : Obligations.DecodeWrongLength := by
  intro s hlen hfit
  rw [exec_decode_of_admits hfit, ruleDecode_of_length_ne hlen]
  rfl

/-- Settles O40: the group is the first checked one that does not match. -/
theorem decodeChecksumError : Obligations.DecodeChecksumError := by
  intro s g hlen hfit hg hbad hbelow
  have hstatus : ∀ g ≤ 7, errorStatus (.checksum (BitVec.ofNat 4 g)) = 0x10 + BitVec.ofNat 8 g := by decide
  rw [exec_decode_of_some hlen hfit ((firstBadGroup_eq_some_iff hlen s.params).2 ⟨hg, hbad, hbelow⟩),
    hstatus g (hg.trans (lastChecked_le s.params))]

/-- Settles O39: no checked group is bad, so the fields are written out, each scaled with its entry of the table. -/
theorem decodeResult : Obligations.DecodeResult := by
  intro s hlen hfit hmatch
  refine ⟨_, exec_decode_of_none hlen hfit ((firstBadGroup_eq_none_iff hlen s.params).2 hmatch),
    length_readingBytes hlen, fun k hk => ?_⟩
  obtain ⟨k, rfl⟩ : ∃ j : FieldIndex, j.toNat = k := ⟨.ofNat 4 k, Nat.mod_eq_of_lt (by omega)⟩
  obtain ⟨v0, v1, c, hg⟩ := exists_groupAt (n := 8) hlen (g := k.toNat) (by omega)
  obtain ⟨d, hd⟩ := descOf_exists hk
  exact ⟨v0, v1, hg.first, hg.second, by rw [readingBytes_field hd hg, encRat_scaleBy_toNat hd]⟩

/-- Settles O43: the response is that of the arguments. -/
theorem decodeIsPure : Obligations.DecodeIsPure := by
  intro s u hdata hparams
  refine ⟨_, exec_decode_eq_answered s, ?_⟩
  rw [hdata, hparams]
  exact exec_decode_eq_answered u

/-- Settles O42: with seven groups checked and seven written out, the rule reads the first 21 bytes alone, and the check before
it reads the length. -/
theorem trailingGroupIgnoredWhenUnchecked : Obligations.TrailingGroupIgnoredWhenUnchecked := by
  intro s buf tail tail' hunchecked hbuf htail htail'
  refine ⟨decodeResponse s.params (buf ++ tail), ?_, ?_⟩
  · rw [exec_decode_eq_answered, responseOf_answered]
  · rw [exec_decode_eq_answered, responseOf_answered, decodeResponse_append hunchecked hbuf htail htail']

/-! ### DECODE and its parts (43_decoder.md R82) -/

/-- FIELD_CHECK answers match 0x01 exactly on the computed checksum. -/
theorem fieldCheck_matches_iff {s : State} {v0 v1 c : Byte} (hdata : s.data = [v0, v1, c])
    (hfit : Admits s.params s.data) :
    (∃ x, responseOf (exec .fieldCheck s) = some ⟨0x00, [0x01, x]⟩) ↔ crc8 [v0, v1] = c := by
  rw [exec_fieldCheck_of_group hdata hfit, responseOf_answered]
  simp [matchByte]

/-- A piece of an admitted operand is admitted. -/
theorem admits_take_drop {p : Params} {data : List Byte} (hfit : Admits p data) (m n : Nat) :
    Admits p ((data.drop m).take n) := fun k hk => by
  have := hfit k hk
  rw [List.length_take, List.length_drop]
  omega

section
variable (s : State) {data : List Byte} (hlen : data.length = 24) (hfit : Admits s.params data)
include hlen hfit

theorem fieldCheck_of_group_matches_iff {g : Nat} (hg : g < 8) :
    (∃ x, responseOf (exec .fieldCheck { s with data := (data.drop (3 * g)).take 3 }) = some ⟨0x00, [0x01, x]⟩) ↔
      GroupMatches data g := by
  obtain ⟨v0, v1, c, hat⟩ := exists_groupAt (n := 8) hlen hg
  rw [hat.groupMatches_iff, fieldCheck_matches_iff hat.take_three (admits_take_drop hfit _ _)]

/-- SCALE of a group's value bytes answers the group's field of DECODE's output. -/
theorem responseOf_exec_scale_of_group {k : FieldIndex} (hk : k.toNat ≤ 6) :
    responseOf (exec (.scale k) { s with data := (data.drop (3 * k.toNat)).take 2 }) =
      some ⟨0x00, ((readingBytes (groupsOf data)).drop (5 * k.toNat)).take 5⟩ := by
  obtain ⟨v0, v1, c, hat⟩ := exists_groupAt (n := 8) (g := k.toNat) hlen (by omega)
  obtain ⟨d, hd⟩ := descOf_exists hk
  rw [exec_scale_of_word hd hat.take_two (admits_take_drop hfit _ _), responseOf_answered, readingBytes_field hd hat]

end

/-- Settles O44: DECODE succeeds where no checked group is bad, which is where FIELD_CHECK matches each of them, and FRAME
succeeds on any 24 bytes; the 35 bytes are then their seven fields, one after the other. -/
theorem decodeAgreesWithItsParts : Obligations.DecodeAgreesWithItsParts := by
  intro s data hlen hfit ans group
  have hdecode {out : List Byte} : ans .decode data = some ⟨0x00, out⟩ ↔
      firstBadGroup s.params (groupsOf data) = none ∧ out = readingBytes (groupsOf data) :=
    responseOf_exec_decode_eq_success_iff (s := { s with data := data }) hlen hfit
  refine ⟨?_, fun out hout => ?_⟩
  · have hframe : ∃ out, ans (.frame 8) data = some ⟨0x00, out⟩ :=
      (framingConditionIsExact 8 { s with data := data } hfit).left.2 hlen
    simp only [hdecode, exists_and_left, exists_eq, and_true, hframe, true_and, firstBadGroup_eq_none_iff hlen]
    exact forall₂_congr fun g hg =>
      (fieldCheck_of_group_matches_iff s hlen hfit (Nat.lt_succ_of_le (hg.trans (lastChecked_le s.params)))).symm
  · obtain ⟨-, rfl⟩ := hdecode.1 hout
    have hscale {k : FieldIndex} (hk : k.toNat ≤ 6) := responseOf_exec_scale_of_group s hlen hfit hk
    exact ⟨_, _, _, _, _, _, _, hscale (k := 0) (by decide), hscale (k := 1) (by decide), hscale (k := 2) (by decide),
      hscale (k := 3) (by decide), hscale (k := 4) (by decide), hscale (k := 5) (by decide), hscale (k := 6) (by decide),
      eq_append_fields (length_readingBytes hlen)⟩

end Sys2Proof.Machine

namespace Sys2Proof.Machine

/-! ### The response of one request (60_exceptions.md) -/

/-- An error response to a run word has an empty output and keeps `ACC` (60_exceptions.md R86). -/
theorem runWord_error_keeps {w : CmdWord} {s t : State} {resp : Response} (h : runWord w s = .next t)
    (hresp : t.responses = s.responses ++ [resp]) (herr : resp.status ≠ 0x00) :
    t = s.answered s.acc resp.status [] := by
  rcases runWord_answers w s with ⟨_, acc, v, out, -, hrun, hans⟩ | ⟨_, -, hrun⟩
  · cases hrun.symm.trans h
    obtain rfl : ⟨v, out⟩ = resp := by simpa using hresp
    obtain ⟨hacc, hout⟩ : acc = s.acc ∧ out = [] := hans.errorKeeps herr
    rw [hacc, hout]
  · cases hrun.symm.trans h
    obtain rfl : ⟨0x30, []⟩ = resp := by simpa using hresp
    rfl

/-- Settles O15: the accepted request's word is run, and every run word is answered legally. -/
theorem everyRequestGetsOneLegalResponse : Obligations.EveryRequestGetsOneLegalResponse := by
  intro s r rest hin hidle
  obtain ⟨acc, v, out, hrun, hlegal⟩ := runWord_answers_legal r.word (accept r { s with inputs := rest })
  exact ⟨_, ⟨v, out⟩, (step_of_request hin hidle).trans hrun, rfl, hlegal, rfl, rfl, rfl, rfl⟩

/-- Settles O18: a step at a request runs its word, and an error response to a run word keeps the state. -/
theorem errorsChangeNoState : Obligations.ErrorsChangeNoState := by
  intro s t r rest resp hin hstep hresp herr
  rcases step_next_cases hstep with ⟨r', rest', hin', -, hrun⟩ | ⟨_, hreset, -⟩
  · cases hin.symm.trans hin'
    exact (runWord_error_keeps hrun hresp herr :)
  · cases hin.symm.trans hreset

/-! ### The statuses of each operation (60_exceptions.md R88) -/

/-- The table of R88: operation `i` may return the status byte `v`. -/
def MayReturn (i : Instr) (v : Byte) : Prop :=
  v = 0x00 ∨ v = 0x30 ∨ (((∃ n, i = .frame n) ∨ i = .decode) ∧ v = 0x20) ∨
    (i = .decode ∧ 0x10 ≤ v.toNat ∧ v.toNat ≤ 0x17)

theorem mayReturn_success (i : Instr) : MayReturn i success := .inl rfl

theorem mayReturn_illegal (i : Instr) : MayReturn i (errorStatus .illegalOperation) := .inr (.inl rfl)

theorem mayReturn_frame_framing (n : Byte) : MayReturn (.frame n) (errorStatus .framing) :=
  .inr (.inr (.inl ⟨.inl ⟨n, rfl⟩, rfl⟩))

/-- DECODE's row of the table has every status byte that R85 allows. -/
theorem mayReturn_decode_of_legal {r : Response} (h : r.legal = true) : MayReturn .decode r.status := by
  have hstatus : legalStatus r.status = true := (Bool.and_eq_true_iff.1 h).left
  simp only [legalStatus, Bool.or_eq_true, Bool.and_eq_true, beq_iff_eq, decide_eq_true_eq] at hstatus
  rcases hstatus with ((hok | hchecksum) | hframing) | hillegal
  · exact .inl hok
  · exact .inr (.inr (.inr ⟨rfl, hchecksum⟩))
  · exact .inr (.inr (.inl ⟨.inr rfl, hframing⟩))
  · exact .inr (.inl hillegal)

theorem mayReturn_rule (i : Instr) (p : Params) (data : List Byte) (b : Block) :
    MayReturn i (ruleOf i p data b).response.status := by
  cases i with
  | crcInit | crcUpdate v | crcRead | crcSeq => exact mayReturn_success _
  | fieldCheck =>
    simp only [ruleOf, ruleFieldCheck]
    split
    · exact mayReturn_success _
    · exact mayReturn_illegal _
  | frame n =>
    simp only [ruleOf, ruleFrame]
    split
    · exact mayReturn_frame_framing n
    · exact mayReturn_success _
  | scale k =>
    simp only [ruleOf, ruleScale]
    split
    · exact mayReturn_success _
    · exact mayReturn_illegal _
  | desc k =>
    simp only [ruleOf, ruleDesc]
    split
    · exact mayReturn_illegal _
    · exact mayReturn_success _
  | decode => exact mayReturn_decode_of_legal (answerOf_rule .decode p data b).legal

theorem mayReturn_answer (i : Instr) (p : Params) (data : List Byte) (b : Block) :
    MayReturn i (answer i (ruleOf i) p data b).response.status := by
  unfold answer
  split
  · exact mayReturn_illegal i
  · exact mayReturn_rule i p data b

/-- Settles O20: the data-operand check raises IllegalOperation, and each rule answers within its row of R88. -/
theorem statusesPerOperation : Obligations.StatusesPerOperation := fun i s =>
  ⟨_, _, exec_eq_serve i s, rfl, mayReturn_answer i s.params s.data s.toBlock⟩

/-! ### The first of DECODE's errors (60_exceptions.md R89) -/

/-- Where a checked group fails, there is a lowest one: the group that DECODE finds (43_decoder.md R78). -/
theorem exists_lowest_failing {data : List Byte} {p : Params} (hlen : data.length = 24)
    (h : ∃ g, g ≤ lastChecked p ∧ ¬ GroupMatches data g) :
    ∃ g, g ≤ lastChecked p ∧ ¬ GroupMatches data g ∧ ∀ j, j < g → GroupMatches data j := by
  obtain ⟨g, hg, hfails⟩ := h
  cases hfirst : firstBadGroup p (groupsOf data) with
  | none => exact absurd ((firstBadGroup_eq_none_iff hlen p).1 hfirst g hg) hfails
  | some g' => exact ⟨g', (firstBadGroup_eq_some_iff hlen p).1 hfirst⟩

/-- An operation's response has one status. -/
theorem status_unique {i : Instr} {s : State} {a a' v v' : Byte} {out out' : List Byte}
    (h : exec i s = .next (s.answered a v out)) (h' : exec i s = .next (s.answered a' v' out')) : v = v' := by
  have hresp := congrArg responseOf (h.symm.trans h')
  rw [responseOf_answered, responseOf_answered] at hresp
  cases hresp
  rfl

/-- Settles O21: the data-operand check comes before the rule, which asks for the length before it looks at a group. -/
theorem decodeReportsTheFirstError : Obligations.DecodeReportsTheFirstError := by
  intro s
  obtain ⟨acc, v, out, hexec, -⟩ := exec_answers .decode s
  refine ⟨_, ⟨v, out⟩, hexec, rfl, fun hover => ?_, fun hfit hlen => ?_, fun hfit hlen hfails => ?_⟩
  · exact status_unique hexec (oversizeDataIsIllegalEverywhere .decode s hover)
  · exact status_unique hexec (decodeWrongLength s hlen hfit)
  · obtain ⟨g, hg, hbad, hbelow⟩ := exists_lowest_failing hlen hfails
    have hv : v = 0x10 + BitVec.ofNat 8 g :=
      status_unique hexec (decodeChecksumError s g hlen hfit hg hbad hbelow)
    have hstatus : ∀ g ≤ 7, (0x10 + BitVec.ofNat 8 g : Byte).toNat = 0x10 + g := by decide
    exact ⟨g, hg, hbad, hbelow, hv ▸ hstatus g (hg.trans (lastChecked_le s.params))⟩

end Sys2Proof.Machine

namespace Sys2Proof.Machine

/-! ### A CRC_INIT inside a stream (70_reset_and_hazards.md R101) -/

/-- Different accumulators stay different under one byte. -/
theorem crc8Step_left_injective (b : Byte) : Function.Injective (crc8Step · b) := fun _ _ h =>
  (BitVec.xor_left_inj b).1 (crcRounds_injective 8 h)

/-- Different accumulators stay different under any bytes. -/
theorem foldl_crc8Step_injective (bytes : List Byte) : Function.Injective (bytes.foldl crc8Step) := by
  induction bytes with
  | nil => exact Function.injective_id
  | cons b bytes ih => exact ih.comp (crc8Step_left_injective b)

/-- Behind the same later bytes, two checksums agree exactly where those of the earlier bytes do. -/
theorem crc8_append_eq_append_iff (xs ys zs : List Byte) : crc8 (xs ++ zs) = crc8 (ys ++ zs) ↔ crc8 xs = crc8 ys := by
  simp only [crc8, List.foldl_append]
  exact (foldl_crc8Step_injective zs).eq_iff

/-- A stream left before its CRC_READ: CRC_INIT and the updates `xs` leave the checksum of `xs`. -/
theorem serves_openStream (acc : Byte) (xs : List Byte) :
    Serves acc (requestOf .crcInit [] :: xs.map fun b => requestOf (.crcUpdate b) []) (crc8 xs)
      (List.replicate (xs.length + 1) ⟨0x00, []⟩) :=
  (serves_crcInit acc).append (serves_crcUpdates init xs)

/-- Settles O51: CRC_BYTES is served alike whatever the open stream before it left in `ACC`, and later bytes keep different
accumulators different. -/
theorem initInsideStreamDiscardsItsBytes : Obligations.InitInsideStreamDiscardsItsBytes := by
  intro xs ys zs s rest hin hidle
  refine ⟨?_, by rw [Ne, crc8_append_eq_append_iff, eq_comm]⟩
  obtain ⟨t, hrun, hacc, -, hrest, hresp⟩ :=
    ((serves_openStream s.acc xs).append (serves_crcBytes _ (ys ++ zs))) s rest hin hidle rfl
  have hsteps : xs.length + ys.length + zs.length + 3 =
      ((requestOf .crcInit [] :: xs.map fun b => requestOf (.crcUpdate b) []) ++ crcBytes (ys ++ zs)).length := by
    simp [length_crcBytes]
    omega
  have hsuccesses : xs.length + ys.length + zs.length + 2 = (xs.length + 1) + ((ys ++ zs).length + 1) := by
    simp
    omega
  refine ⟨t, hsteps ▸ hrun, hrest, hacc, ?_⟩
  simp only [hresp, hsuccesses, List.replicate_add, List.append_assoc]

/-! ### Reset (70_reset_and_hazards.md R97 to R99) -/

/-- A reset, then requests that are served from `INIT`. -/
theorem exists_runsTo_of_reset {s : State} {reqs : List Request} {rest : List PortEvent} {acc : Byte}
    {new : List Response} (hin : s.inputs = .reset :: (reqs.map .request ++ rest)) (h : Serves init reqs acc new) :
    ∃ t, RunsTo (reqs.length + 1) s t ∧ t.acc = acc ∧ t.responses = s.responses ++ new := by
  obtain ⟨t, hrun, hacc, -, -, hresp⟩ := h (resetBlock { s with inputs := reqs.map .request ++ rest }) rest rfl rfl rfl
  exact ⟨t, runsTo_succ (step_of_reset hin) hrun, hacc, hresp⟩

/-- Settles O12: a reset leaves `INIT` as CRC_INIT does, and the request after either is served from there. -/
theorem firstRequestAfterReset : Obligations.FirstRequestAfterReset := by
  intro s b rest
  refine ⟨fun hin => ?_, fun hin => ?_⟩
  · obtain ⟨t, hrun, hacc, hresp⟩ := exists_runsTo_of_reset (reqs := [requestOf .crcRead []]) hin (serves_crcRead init)
    exact ⟨t, hrun, hresp, hacc⟩
  · obtain ⟨t, hrun, hacc, -⟩ :=
      exists_runsTo_of_reset (reqs := [requestOf (.crcUpdate b) []]) hin (serves_crcUpdate init b)
    obtain ⟨u, hrun', hacc', -⟩ := ((serves_crcInit s.acc).append (serves_crcUpdate init b))
      { s with
        busy := false
        inputs := .request ⟨0x0000, []⟩ :: .request ⟨encode (.crcUpdate b), []⟩ :: rest } rest rfl rfl rfl
    exact ⟨t, u, hrun, hrun', hacc.trans hacc'.symm⟩

/-- Settles O10: a reset event is taken whatever `BUSY` is. -/
theorem resetEventResetsTheBlock : Obligations.ResetEventResetsTheBlock := fun _ _ hin => step_of_reset hin

/-- Settles O11: the state after reset holds `Block.reset`. -/
theorem resetStateIsIdleWithInit : Obligations.ResetStateIsIdleWithInit := ⟨blockReset_acc, blockReset_busy⟩

/-- Settles O13: after reset no response has been returned yet. -/
theorem resetMeetsInv : Obligations.ResetMeetsInv := ⟨blockReset_busy, rfl, List.forall_mem_nil _⟩

end Sys2Proof.Machine
